-- ==== Sys2Proof/Word.lean ====
section
/-! DEFINITION. The word types of the core (spec/00_scope.md R5, R6): every value is unsigned, bit 0 is the least significant. -/

namespace Sys2Proof

/-- An 8-bit value: a general register, a timer, one byte of memory (R5). -/
abbrev Byte := BitVec 8

/-- A 16-bit value: the index register, the program counter, a stack entry, an instruction word (R5, R71). -/
abbrev Word := BitVec 16

/-- A 12-bit address field NNN (R8, R74). -/
abbrev Addr12 := BitVec 12

/-- A 4-bit field of an instruction word (R11). -/
abbrev Nibble := BitVec 4

/-- The number of a general register V0..VF (R20): a 4-bit field, so every number names a register. -/
abbrev Reg := Fin 16

/-- VF, the register that several instructions also write as a flag (R21). -/
abbrev VF : Reg := 15

/-- V0, the register BNNN adds (R113). -/
abbrev V0 : Reg := 0

end Sys2Proof
end

