-- ==== Sys2Proof/Syntax.lean ====
section
/-! DEFINITION. The instructions: one constructor per row of spec/opcode_table.json, its operands the row's fields. -/

namespace Sys2Proof

/-- The 34 instruction forms of R76 and R78, and the catch-all row of R79. A field the instruction does not read (Y of
8XY6 and 8XYE, X of FX0A: R74) is kept, so that no bit of a word is lost. -/
inductive Instr where
  /-- 00E0 `CLS` (R100). -/
  | cls
  /-- 00EE `RET` (R110). -/
  | ret
  /-- 1NNN `JP 0xNNN` (R111). -/
  | jp (nnn : Addr12)
  /-- 2NNN `CALL 0xNNN` (R112). -/
  | call (nnn : Addr12)
  /-- 3XNN `SE Vx, 0xNN` (R121). -/
  | seByte (x : Reg) (nn : Byte)
  /-- 4XNN `SNE Vx, 0xNN` (R122). -/
  | sneByte (x : Reg) (nn : Byte)
  /-- 5XY0 `SE Vx, Vy` (R123). -/
  | seReg (x y : Reg)
  /-- 6XNN `LD Vx, 0xNN` (R130). -/
  | ldByte (x : Reg) (nn : Byte)
  /-- 7XNN `ADD Vx, 0xNN` (R131). -/
  | addByte (x : Reg) (nn : Byte)
  /-- 8XY0 `LD Vx, Vy` (R132). -/
  | ldReg (x y : Reg)
  /-- 8XY1 `OR Vx, Vy` (R133). -/
  | orReg (x y : Reg)
  /-- 8XY2 `AND Vx, Vy` (R134). -/
  | andReg (x y : Reg)
  /-- 8XY3 `XOR Vx, Vy` (R135). -/
  | xorReg (x y : Reg)
  /-- 8XY4 `ADD Vx, Vy` (R136). -/
  | addReg (x y : Reg)
  /-- 8XY5 `SUB Vx, Vy` (R137). -/
  | subReg (x y : Reg)
  /-- 8XY6 `SHR Vx, Vy` (R138). -/
  | shr (x y : Reg)
  /-- 8XY7 `SUBNY Vx, Vy` (R139). -/
  | subny (x y : Reg)
  /-- 8XYE `SHL Vx, Vy` (R140). -/
  | shl (x y : Reg)
  /-- 9XY0 `SNE Vx, Vy` (R124). -/
  | sneReg (x y : Reg)
  /-- ANNN `LD I, 0xNNN` (R150). -/
  | ldI (nnn : Addr12)
  /-- BNNN `JP V0, 0xNNN` (R113). -/
  | jpV0 (nnn : Addr12)
  /-- CXNN `RND4 Vx, 0xNN` (R160). -/
  | rnd4 (x : Reg) (nn : Byte)
  /-- DXYN `DRW Vx, Vy, N` (R101). -/
  | drw (x y : Reg) (n : Nibble)
  /-- EX9E `SKP Vx` (R170). -/
  | skp (x : Reg)
  /-- EXA1 `SKNP Vx` (R171). -/
  | sknp (x : Reg)
  /-- FX07 `LD Vx, DT` (R180). -/
  | ldVxDt (x : Reg)
  /-- FX0A `WAITK Vx` (R172). -/
  | waitk (x : Reg)
  /-- FX15 `LD DT, Vx` (R181). -/
  | ldDtVx (x : Reg)
  /-- FX18 `LD ST, Vx` (R182). -/
  | ldStVx (x : Reg)
  /-- FX1E `ADD I, Vx` (R151). -/
  | addI (x : Reg)
  /-- FX29 `LD F, Vx` (R152). -/
  | ldF (x : Reg)
  /-- FX33 `LD B, Vx` (R153). -/
  | ldB (x : Reg)
  /-- FX55 `LD [I], Vx` (R154). -/
  | storeRegs (x : Reg)
  /-- FX65 `LD Vx, [I]` (R155). -/
  | loadRegs (x : Reg)
  /-- Any other word, `.word 0xHHHH`: a no-op (R79). -/
  | unrecognized (w : Word)
  deriving DecidableEq, Repr

end Sys2Proof
end

