-- ==== Sys2Proof/WellFormed.lean ====
section
/-! DEFINITION. Which terms of `Instr` stand for words. Register numbers, immediates, counts and addresses are bounded by
their types (R8, R20), so the one check is on the catch-all row: its word is one of the words R79 lists. -/

namespace Sys2Proof

/-- The unrecognized words, as R79 lists them: 0NNN except 00E0 and 00EE; 5XYn and 9XYn with n not 0; 8XYn with n in
8, 9, A, B, C, D, F; EXnn with nn not 9E or A1; FXnn with nn none of 07, 0A, 15, 18, 1E, 29, 33, 55, 65. -/
def unrecognizedWord (w : Word) : Bool :=
  let n := w.toNat
  (n / 0x1000 == 0x0 && n != 0x00E0 && n != 0x00EE) ||
  ((n / 0x1000 == 0x5 || n / 0x1000 == 0x9) && n % 0x10 != 0) ||
  (n / 0x1000 == 0x8 && [0x8, 0x9, 0xA, 0xB, 0xC, 0xD, 0xF].contains (n % 0x10)) ||
  (n / 0x1000 == 0xE && !([0x9E, 0xA1].contains (n % 0x100))) ||
  (n / 0x1000 == 0xF && !([0x07, 0x0A, 0x15, 0x18, 0x1E, 0x29, 0x33, 0x55, 0x65].contains (n % 0x100)))

/-- An instruction is well formed when it stands for exactly one word: the catch-all row only for a word R79 lists. -/
def WellFormed : Instr → Bool
  | .unrecognized w => unrecognizedWord w
  | _ => true

end Sys2Proof
end

