-- ==== Sys2Proof/Decode.lean ====
section
/-! DEFINITION. The decoder (spec/30_encoding.md R71 to R82), total on every word and on every sequence of bytes, and after
it the encoder and the opcode table as mask and match rows (R80). -/

namespace Sys2Proof

/-- n1 = w[15:12] (R71). -/
def nibble1 (w : Word) : Nibble := w.extractLsb' 12 4
/-- n2 = w[11:8], the field X (R72). -/
def nibble2 (w : Word) : Nibble := w.extractLsb' 8 4
/-- n3 = w[7:4], the field Y (R72). -/
def nibble3 (w : Word) : Nibble := w.extractLsb' 4 4
/-- n4 = w[3:0], the field N (R72). -/
def nibble4 (w : Word) : Nibble := w.extractLsb' 0 4
/-- NN = w[7:0] (R72). -/
def lowByte (w : Word) : Byte := w.extractLsb' 0 8
/-- NNN = w[11:0] (R72). -/
def low12 (w : Word) : Addr12 := w.extractLsb' 0 12
/-- The register a 4-bit field names (R20, R74). -/
def regOf (b : Nibble) : Reg := b.toFin
/-- The field X as a register number (R8). -/
def regX (w : Word) : Reg := regOf (nibble2 w)
/-- The field Y as a register number (R8). -/
def regY (w : Word) : Reg := regOf (nibble3 w)

/-- Family 0 is told apart by the whole word (R75, R76). -/
def decode0 (w : Word) : Instr :=
  if w = 0x00E0#16 then .cls
  else if w = 0x00EE#16 then .ret
  else .unrecognized w

/-- Family 8 is told apart by nibble 4 (R75, R76). -/
def decode8 (w : Word) : Instr :=
  match (nibble4 w).toNat with
  | 0x0 => .ldReg (regX w) (regY w)
  | 0x1 => .orReg (regX w) (regY w)
  | 0x2 => .andReg (regX w) (regY w)
  | 0x3 => .xorReg (regX w) (regY w)
  | 0x4 => .addReg (regX w) (regY w)
  | 0x5 => .subReg (regX w) (regY w)
  | 0x6 => .shr (regX w) (regY w)
  | 0x7 => .subny (regX w) (regY w)
  | 0xE => .shl (regX w) (regY w)
  | _ => .unrecognized w

/-- Family E is told apart by the low byte (R75, R76). -/
def decodeE (w : Word) : Instr :=
  if lowByte w = 0x9E#8 then .skp (regX w)
  else if lowByte w = 0xA1#8 then .sknp (regX w)
  else .unrecognized w

/-- Family F is told apart by the low byte (R75, R76). -/
def decodeF (w : Word) : Instr :=
  if lowByte w = 0x07#8 then .ldVxDt (regX w)
  else if lowByte w = 0x0A#8 then .waitk (regX w)
  else if lowByte w = 0x15#8 then .ldDtVx (regX w)
  else if lowByte w = 0x18#8 then .ldStVx (regX w)
  else if lowByte w = 0x1E#8 then .addI (regX w)
  else if lowByte w = 0x29#8 then .ldF (regX w)
  else if lowByte w = 0x33#8 then .ldB (regX w)
  else if lowByte w = 0x55#8 then .storeRegs (regX w)
  else if lowByte w = 0x65#8 then .loadRegs (regX w)
  else .unrecognized w

/-- Dispatch on the first nibble (R75, R76), every fixed digit compared exactly (R77); every word selects exactly one
instruction (R80). A nibble is below 16, so the last arm is family F. -/
def decodeWord (w : Word) : Instr :=
  match (nibble1 w).toNat with
  | 0x0 => decode0 w
  | 0x1 => .jp (low12 w)
  | 0x2 => .call (low12 w)
  | 0x3 => .seByte (regX w) (lowByte w)
  | 0x4 => .sneByte (regX w) (lowByte w)
  | 0x5 => if nibble4 w = 0#4 then .seReg (regX w) (regY w) else .unrecognized w
  | 0x6 => .ldByte (regX w) (lowByte w)
  | 0x7 => .addByte (regX w) (lowByte w)
  | 0x8 => decode8 w
  | 0x9 => if nibble4 w = 0#4 then .sneReg (regX w) (regY w) else .unrecognized w
  | 0xA => .ldI (low12 w)
  | 0xB => .jpV0 (low12 w)
  | 0xC => .rnd4 (regX w) (lowByte w)
  | 0xD => .drw (regX w) (regY w) (nibble4 w)
  | 0xE => decodeE w
  | _ => decodeF w

/-- Two bytes as a word, the byte at the lower address high (R57). -/
def wordOfBytes (hi lo : Byte) : Word := hi ++ lo

/-- Why a sequence of bytes holds no instruction. -/
inductive DecodeError where
  /-- Fewer than the two bytes of an instruction word (R71). No encoding is illegal (R81), so this is the only error. -/
  | truncated
  deriving DecidableEq, Repr

/-- The decoder on any sequence of bytes: one instruction and the bytes after its word (R57, R71, R81). -/
def decodeBytes : List Byte → Except DecodeError (Instr × List Byte)
  | hi :: lo :: rest => .ok (decodeWord (wordOfBytes hi lo), rest)
  | _ => .error .truncated

/-- The bytes of an opcode-table word as memory holds them: big-endian (R57); bits above nbits are 0. -/
def tableBytes (nbits w : Nat) : List Byte :=
  let v := w % 2 ^ min nbits 16
  [BitVec.ofNat 8 (v / 256), BitVec.ofNat 8 v]

/-- The instruction the decoder reads from a word numbered as spec/opcode_table.json numbers it. -/
def decodeTableWord (nbits w : Nat) : Option Instr :=
  match decodeBytes (tableBytes nbits w) with
  | .ok (i, _) => some i
  | .error _ => none

/-- A register number as its 4-bit field (R74). -/
def regBits (x : Reg) : Nibble := BitVec.ofFin x

/-- Format A: op, NNN (R73). -/
def packA (op : Nibble) (nnn : Addr12) : Word := op ++ nnn
/-- Format XNN, and format X with a byte sub-opcode: op, X, NN (R73). -/
def packXNN (op : Nibble) (x : Reg) (nn : Byte) : Word := op ++ regBits x ++ nn
/-- Formats XY and XYN: op, X, Y, sub-opcode or N (R73). -/
def packXYN (op : Nibble) (x y : Reg) (n : Nibble) : Word := op ++ regBits x ++ regBits y ++ n

/-- The word of an instruction, from the format of its row (R73, spec/opcode_table.json). -/
def encode : Instr → Word
  | .cls => 0x00E0#16
  | .ret => 0x00EE#16
  | .jp nnn => packA 0x1#4 nnn
  | .call nnn => packA 0x2#4 nnn
  | .seByte x nn => packXNN 0x3#4 x nn
  | .sneByte x nn => packXNN 0x4#4 x nn
  | .seReg x y => packXYN 0x5#4 x y 0x0#4
  | .ldByte x nn => packXNN 0x6#4 x nn
  | .addByte x nn => packXNN 0x7#4 x nn
  | .ldReg x y => packXYN 0x8#4 x y 0x0#4
  | .orReg x y => packXYN 0x8#4 x y 0x1#4
  | .andReg x y => packXYN 0x8#4 x y 0x2#4
  | .xorReg x y => packXYN 0x8#4 x y 0x3#4
  | .addReg x y => packXYN 0x8#4 x y 0x4#4
  | .subReg x y => packXYN 0x8#4 x y 0x5#4
  | .shr x y => packXYN 0x8#4 x y 0x6#4
  | .subny x y => packXYN 0x8#4 x y 0x7#4
  | .shl x y => packXYN 0x8#4 x y 0xE#4
  | .sneReg x y => packXYN 0x9#4 x y 0x0#4
  | .ldI nnn => packA 0xA#4 nnn
  | .jpV0 nnn => packA 0xB#4 nnn
  | .rnd4 x nn => packXNN 0xC#4 x nn
  | .drw x y n => packXYN 0xD#4 x y n
  | .skp x => packXNN 0xE#4 x 0x9E#8
  | .sknp x => packXNN 0xE#4 x 0xA1#8
  | .ldVxDt x => packXNN 0xF#4 x 0x07#8
  | .waitk x => packXNN 0xF#4 x 0x0A#8
  | .ldDtVx x => packXNN 0xF#4 x 0x15#8
  | .ldStVx x => packXNN 0xF#4 x 0x18#8
  | .addI x => packXNN 0xF#4 x 0x1E#8
  | .ldF x => packXNN 0xF#4 x 0x29#8
  | .ldB x => packXNN 0xF#4 x 0x33#8
  | .storeRegs x => packXNN 0xF#4 x 0x55#8
  | .loadRegs x => packXNN 0xF#4 x 0x65#8
  | .unrecognized w => w

/-- The bytes of an instruction as memory holds them: high byte first (R57). -/
def encodeBytes (i : Instr) : List Byte := [(encode i).extractLsb' 8 8, lowByte (encode i)]

/-- One instruction row of spec/opcode_table.json: a word belongs to it when (w AND mask) = value (R80). -/
structure OpcodeRow where
  /-- The row's mask. -/
  mask : Word
  /-- The row's match. -/
  value : Word
  deriving DecidableEq, Repr

/-- The 34 instruction rows of spec/opcode_table.json in its order, the catch-all row left out (R78, R80). -/
def opcodeRows : List OpcodeRow :=
  [⟨0xFFFF, 0x00E0⟩, ⟨0xFFFF, 0x00EE⟩, ⟨0xF000, 0x1000⟩, ⟨0xF000, 0x2000⟩, ⟨0xF000, 0x3000⟩, ⟨0xF000, 0x4000⟩] ++
  [⟨0xF00F, 0x5000⟩, ⟨0xF000, 0x6000⟩, ⟨0xF000, 0x7000⟩] ++
  [⟨0xF00F, 0x8000⟩, ⟨0xF00F, 0x8001⟩, ⟨0xF00F, 0x8002⟩, ⟨0xF00F, 0x8003⟩, ⟨0xF00F, 0x8004⟩, ⟨0xF00F, 0x8005⟩] ++
  [⟨0xF00F, 0x8006⟩, ⟨0xF00F, 0x8007⟩, ⟨0xF00F, 0x800E⟩, ⟨0xF00F, 0x9000⟩] ++
  [⟨0xF000, 0xA000⟩, ⟨0xF000, 0xB000⟩, ⟨0xF000, 0xC000⟩, ⟨0xF000, 0xD000⟩] ++
  [⟨0xF0FF, 0xE09E⟩, ⟨0xF0FF, 0xE0A1⟩, ⟨0xF0FF, 0xF007⟩, ⟨0xF0FF, 0xF00A⟩, ⟨0xF0FF, 0xF015⟩, ⟨0xF0FF, 0xF018⟩] ++
  [⟨0xF0FF, 0xF01E⟩, ⟨0xF0FF, 0xF029⟩, ⟨0xF0FF, 0xF033⟩, ⟨0xF0FF, 0xF055⟩, ⟨0xF0FF, 0xF065⟩]

/-- Whether a row selects a word (R80). -/
def OpcodeRow.selects (r : OpcodeRow) (w : Word) : Bool := w &&& r.mask == r.value

/-- The place of an instruction's row in `opcodeRows`; none for the catch-all row. -/
def rowIndex : Instr → Option Nat
  | .cls => some 0
  | .ret => some 1
  | .jp _ => some 2
  | .call _ => some 3
  | .seByte _ _ => some 4
  | .sneByte _ _ => some 5
  | .seReg _ _ => some 6
  | .ldByte _ _ => some 7
  | .addByte _ _ => some 8
  | .ldReg _ _ => some 9
  | .orReg _ _ => some 10
  | .andReg _ _ => some 11
  | .xorReg _ _ => some 12
  | .addReg _ _ => some 13
  | .subReg _ _ => some 14
  | .shr _ _ => some 15
  | .subny _ _ => some 16
  | .shl _ _ => some 17
  | .sneReg _ _ => some 18
  | .ldI _ => some 19
  | .jpV0 _ => some 20
  | .rnd4 _ _ => some 21
  | .drw _ _ _ => some 22
  | .skp _ => some 23
  | .sknp _ => some 24
  | .ldVxDt _ => some 25
  | .waitk _ => some 26
  | .ldDtVx _ => some 27
  | .ldStVx _ => some 28
  | .addI _ => some 29
  | .ldF _ => some 30
  | .ldB _ => some 31
  | .storeRegs _ => some 32
  | .loadRegs _ => some 33
  | .unrecognized _ => none

/-! ### Assembler syntax (R85, R86): notation only, no rule depends on it -/

/-- One hexadecimal digit. -/
def hexDigit (n : Nat) : String :=
  ["0", "1", "2", "3", "4", "5", "6", "7", "8", "9", "A", "B", "C", "D", "E", "F"].getD (n % 16) "0"

/-- A register, V0 to VF (R85). -/
def asmReg (x : Reg) : String := "V" ++ hexDigit x.val
/-- An immediate byte, 0xNN (R85). -/
def asmByte (b : Byte) : String := "0x" ++ hexDigit (b.toNat / 16) ++ hexDigit b.toNat
/-- An address, 0xNNN (R85). -/
def asmAddr (a : Addr12) : String := "0x" ++ hexDigit (a.toNat / 256) ++ hexDigit (a.toNat / 16) ++ hexDigit a.toNat
/-- A whole word, 0xHHHH (R85). -/
def asmWord (w : Word) : String :=
  "0x" ++ hexDigit (w.toNat / 4096) ++ hexDigit (w.toNat / 256) ++ hexDigit (w.toNat / 16) ++ hexDigit w.toNat
/-- A count, a decimal 0 to 15 (R85). -/
def asmCount (n : Nibble) : String :=
  if n.toNat < 10 then hexDigit n.toNat else "1" ++ hexDigit (n.toNat - 10)
/-- Mnemonic, register, byte. -/
def asmRegByte (name : String) (x : Reg) (nn : Byte) : String := name ++ asmReg x ++ ", " ++ asmByte nn
/-- Mnemonic, register, register. -/
def asmRegReg (name : String) (x y : Reg) : String := name ++ asmReg x ++ ", " ++ asmReg y

/-- An instruction in the spec's assembler syntax (R85). -/
def assembly : Instr → String
  | .cls => "CLS"
  | .ret => "RET"
  | .jp nnn => "JP " ++ asmAddr nnn
  | .call nnn => "CALL " ++ asmAddr nnn
  | .seByte x nn => asmRegByte "SE " x nn
  | .sneByte x nn => asmRegByte "SNE " x nn
  | .seReg x y => asmRegReg "SE " x y
  | .ldByte x nn => asmRegByte "LD " x nn
  | .addByte x nn => asmRegByte "ADD " x nn
  | .ldReg x y => asmRegReg "LD " x y
  | .orReg x y => asmRegReg "OR " x y
  | .andReg x y => asmRegReg "AND " x y
  | .xorReg x y => asmRegReg "XOR " x y
  | .addReg x y => asmRegReg "ADD " x y
  | .subReg x y => asmRegReg "SUB " x y
  | .shr x y => asmRegReg "SHR " x y
  | .subny x y => asmRegReg "SUBNY " x y
  | .shl x y => asmRegReg "SHL " x y
  | .sneReg x y => asmRegReg "SNE " x y
  | .ldI nnn => "LD I, " ++ asmAddr nnn
  | .jpV0 nnn => "JP V0, " ++ asmAddr nnn
  | .rnd4 x nn => asmRegByte "RND4 " x nn
  | .drw x y n => asmRegReg "DRW " x y ++ ", " ++ asmCount n
  | .skp x => "SKP " ++ asmReg x
  | .sknp x => "SKNP " ++ asmReg x
  | .ldVxDt x => "LD " ++ asmReg x ++ ", DT"
  | .waitk x => "WAITK " ++ asmReg x
  | .ldDtVx x => "LD DT, " ++ asmReg x
  | .ldStVx x => "LD ST, " ++ asmReg x
  | .addI x => "ADD I, " ++ asmReg x
  | .ldF x => "LD F, " ++ asmReg x
  | .ldB x => "LD B, " ++ asmReg x
  | .storeRegs x => "LD [I], " ++ asmReg x
  | .loadRegs x => "LD " ++ asmReg x ++ ", [I]"
  | .unrecognized w => ".word " ++ asmWord w

/-- The pseudo-instruction `HALT` placed at an address: a jump to that address (R86). -/
def halt (a : Addr12) : Instr := .jp a

end Sys2Proof
end

