-- ==== Sys2Proof/Config.lean ====
section
/-! DEFINITION. What is fixed for a machine (spec/00_scope.md R5): the source's constants, the font, the contents of
memory at reset, the OPEN parameters as one record, and the free values (the random draw of R161, the host's operations of
R210). -/

namespace Sys2Proof.Machine

/-- The operations of the host interface (R216). -/
inductive HostOp where
  /-- One fetch-decode-execute cycle (R70). -/
  | cycle
  /-- One timer decrement step (R211). -/
  | tick
  /-- Overwrite one key flag (R213); an index above 15 is not an operation the host can issue. -/
  | key (k : Fin 16) (held : Bool)
  /-- Build a fresh core with a program (R240). -/
  | reset (program : List Byte)
  /-- Read the framebuffer (R214). -/
  | readFb
  /-- Read the sound signal (R215). -/
  | readSound
  /-- Read the fault record (R216). -/
  | readFault
  deriving DecidableEq, Repr, Inhabited

end Sys2Proof.Machine

namespace Sys2Proof.Config

/-- MEM_SIZE: addresses 0..4095 exist (R5, R50). -/
def memSize : Nat := 4096

/-- FONT_BASE (R5, R54, R56). -/
def fontBase : Nat := 0x050

/-- PROGRAM_BASE, the load address and the reset pc (R5, R54, R241). -/
def programBase : Nat := 0x200

/-- The longest program that fits: 0x200 + L <= 4096 (R67). -/
def maxProgram : Nat := memSize - programBase

/-- FB_W, the width of the framebuffer (R5, R29). -/
abbrev fbWidth : Nat := 64

/-- FB_H, the height of the framebuffer (R5, R29). -/
abbrev fbHeight : Nat := 32

/-- Glyph 0, the one glyph whose bytes the source gives (R56). -/
def glyph0 : List Byte := [0xF0, 0x90, 0x90, 0x90, 0xF0]

/-- The default bytes of glyphs 1 to F (R56, decision D14).
PRESUMED: the spec marks this table 'from general knowledge, not in source' (log entry 2); unsafe. -/
def defaultGlyphs : List Byte :=
  [0x20, 0x60, 0x20, 0x20, 0x70] ++ [0xF0, 0x10, 0xF0, 0x80, 0xF0] ++ [0xF0, 0x10, 0xF0, 0x10, 0xF0] ++
  [0x90, 0x90, 0xF0, 0x10, 0x10] ++ [0xF0, 0x80, 0xF0, 0x10, 0xF0] ++ [0xF0, 0x80, 0xF0, 0x90, 0xF0] ++
  [0xF0, 0x10, 0x20, 0x40, 0x40] ++ [0xF0, 0x90, 0xF0, 0x90, 0xF0] ++ [0xF0, 0x90, 0xF0, 0x10, 0xF0] ++
  [0xF0, 0x90, 0xF0, 0x90, 0x90] ++ [0xE0, 0x90, 0xE0, 0x90, 0xE0] ++ [0xF0, 0x80, 0x80, 0x80, 0xF0] ++
  [0xE0, 0x90, 0x90, 0x90, 0xE0] ++ [0xF0, 0x80, 0xF0, 0x80, 0xF0] ++ [0xF0, 0x80, 0xF0, 0x80, 0x80]

/-- The default 80-byte font (R56). -/
def defaultFont : List Byte := glyph0 ++ defaultGlyphs

/-- What an address that memory does not list reads as: the default font at 0x050..0x09F (R56), 0x00 elsewhere.
DESIGN CHOICE: INIT_MEM is OPEN and 0x00 is its simulator default (R35, D15; log entry 1); unsafe. -/
def resetByte (a : Nat) : Byte :=
  if fontBase ≤ a ∧ a < fontBase + 80 then defaultFont.getD (a - fontBase) 0 else 0

/-- The framebuffer: 32 rows from top to bottom, each of 64 pixels from left to right; true is lit (R29). -/
abbrev Framebuffer := Vector (Vector Bool fbWidth) fbHeight

/-- A framebuffer with no pixel lit. -/
def blankFb : Framebuffer := Vector.replicate fbHeight (Vector.replicate fbWidth false)

/-- The OPEN parameters of the machine (R5; spec/92_eei_decisions.md D9, D12, D14, D15): arguments of the model, which
`State` carries unchanged so that a statement about every state holds for every value of each (log entry 3). -/
structure Params where
  /-- STACK_CAPACITY: none is unbounded (R26, D9). -/
  stackCapacity : Option Nat
  /-- FX0A_STORE_KEY (R172, D12). -/
  storeKey : Bool
  /-- The bytes of glyphs 1 to F of FONT (R56, D14); glyph 0 is fixed. -/
  glyphs : Vector Byte 75
  /-- INIT_V (R35, D15). -/
  initV : Vector Byte 16
  /-- INIT_I (R35, D15). -/
  initI : Word
  /-- INIT_DT (R35, D15). -/
  initDt : Byte
  /-- INIT_ST (R35, D15). -/
  initSt : Byte
  /-- INIT_FB (R35, D15). -/
  initFb : Framebuffer
  /-- INIT_KEY (R35, D15). -/
  initKey : Vector Bool 16
  /-- INIT_MEM (R35, D15), as a memory: an address it does not list holds `resetByte`. -/
  initMem : List Host.Cell
  deriving DecidableEq, Repr

/-- The 80 bytes of FONT for one choice of the parameters (R56). -/
def fontBytes (p : Params) : List Byte := glyph0 ++ p.glyphs.toList

/-- The spec's defaults of the OPEN parameters: stack unbounded, FX0A stores no key, the default font, every INIT_ value
zero or false (R5, R35).
DESIGN CHOICE: the spec gives these as simulator defaults and fixes none (log entries 1, 2, 3); unsafe. -/
def defaultParams : Params where
  stackCapacity := none
  storeKey := false
  glyphs := Vector.mk defaultGlyphs.toArray rfl
  initV := Vector.replicate 16 0
  initI := 0
  initDt := 0
  initSt := 0
  initFb := blankFb
  initKey := Vector.replicate 16 false
  initMem := []

/-- The random draw of R161: the value of the n-th draw. A free value in 0..15 under no law (R161, D13): the constant
has no body, so nothing can be proved of it beyond its 4 bits (log entry 5). -/
opaque rngDraw : Nat → Nibble

/-- The n-th operation of a host of which nothing is known: R210 admits any infinite sequence of operations. A free value:
the constant has no body, so what is proved of it holds of every sequence (log entry 4). -/
opaque hostOp : Nat → Machine.HostOp

end Sys2Proof.Config
end

