-- ==== Sys2Proof/Machine/State.lean ====
section
/-! DEFINITION. The state of one core (spec/10_state.md), its faults and refusals, and the state after reset (R35). -/

namespace Sys2Proof.Machine

/-- The kind of a memory access, as a fault records it (R51, R200). -/
inductive AccessKind where
  /-- One of the two byte reads of an instruction fetch (R58). -/
  | fetch
  /-- A data read: DXYN, FX65 (R59). -/
  | read
  /-- A data write: FX33, FX55 (R59). -/
  | write
  deriving DecidableEq, Repr

/-- The fault causes of R200, each with the information it records; no cycle raises any other (R200, R202).
The machine TAKES a fault (R201): the step answers a next state whose fault record holds it, and it never ends a step
(log entry 6). All five are therefore neither a stop nor a guess of the model's. -/
inductive Fault where
  /-- Code 1, MEM_OOB: the lowest out-of-range address and the kind of access. Raised by the fetch of any cycle and by
  DXYN, FX33, FX55 and FX65 (R51, R200). Safe: the effect is the spec's own. -/
  | memOob (addr : Nat) (kind : AccessKind)
  /-- Code 2, STACK_UNDERFLOW. Raised by 00EE on an empty stack (R27, R200). Safe: the effect is the spec's own. -/
  | stackUnderflow
  /-- Code 3, STACK_OVERFLOW: the depth. Raised by 2NNN at a bounded capacity (R27, R200). Safe: the effect is the
  spec's own. -/
  | stackOverflow (depth : Nat)
  /-- Code 4, KEY_RANGE: the value of VX. Raised by EX9E and EXA1 (R170, R171, R200). Safe: the effect is the spec's
  own. -/
  | keyRange (value : Byte)
  /-- Code 5, INDEX_OVERFLOW: the sum. Raised by FX1E (R151, R200). Safe: the effect is the spec's own. -/
  | indexOverflow (sum : Nat)
  deriving DecidableEq, Repr

/-- Why a step has no meaning. -/
inductive Refusal where
  /-- An instruction without a meaning yet, by its mnemonic. Raised by no arm of exec: every instruction has a meaning.
  Safe. -/
  | notModelled (mnemonic : String)
  /-- RESET with a program of more than 3584 bytes, which the core gives no meaning and a model refuses (R67, D20).
  Raised by the host operation RESET only, never by an instruction. Safe. -/
  | programTooLong (length : Nat)
  deriving DecidableEq, Repr

/-- The fault record of a faulted core: cause with its information, the address and the word of the faulting
instruction; the word is none for a FETCH fault (R32, R201). -/
structure FaultRecord where
  /-- The cause and its information. -/
  cause : Fault
  /-- The address of the faulting instruction. -/
  pc : Word
  /-- The fetched word, or none. -/
  word : Option Word
  deriving DecidableEq, Repr

/-- What the host does once the operations it is known to issue next are done: an infinite sequence (R210). -/
inductive HostTail where
  /-- These operations over and over: `first` and then `rest`. -/
  | repeating (first : HostOp) (rest : List HostOp)
  /-- The free sequence of operations `Config.hostOp`, from its n-th on. -/
  | free (n : Nat)
  deriving DecidableEq, Repr

/-- The operations the host issues: any finite sequence, and after it an infinite one (R210; log entry 4). -/
structure Schedule where
  /-- The operations it issues next, first one first. -/
  ops : List HostOp
  /-- What it issues when they are done. -/
  later : HostTail
  deriving DecidableEq, Repr

/-- The host that issues CYCLE for ever. -/
def Schedule.cycles : Schedule := ⟨[], .repeating .cycle []⟩

/-- Memory: the bytes that differ from what an unlisted address reads as, addresses strictly rising (R50). -/
abbrev Memory := List Host.Cell

/-- The state of one core, as the tuple at the head of spec/10_state.md, and three fields of the model's own
(`draws`, `schedule`, `params`). The RNG is a draw at each CXNN and no state (R31). -/
structure State where
  /-- V0..VF (R20). -/
  v : Vector Byte 16
  /-- The index register I (R23). -/
  i : Word
  /-- The program counter (R24). -/
  pc : Word
  /-- The call stack, last element the top (R26, R27). -/
  stack : List Word
  /-- The delay timer DT (R28). -/
  dt : Byte
  /-- The sound timer ST (R28). -/
  st : Byte
  /-- The 4096 bytes of memory (R50). -/
  mem : Memory
  /-- The framebuffer FB (R29). -/
  fb : Config.Framebuffer
  /-- The input latch Key[0..15]; true is held (R30). -/
  key : Vector Bool 16
  /-- The fault record (R32). -/
  fault : Option FaultRecord
  /-- The model's own: how many random draws have been made, which numbers the next free value (R161; log entry 5). -/
  draws : Nat
  /-- The model's own: the operations the host issues from here on, one a step (R210; log entry 4). -/
  schedule : Schedule
  /-- The machine's OPEN parameters, which nothing writes (R5, R33; log entry 3). -/
  params : Config.Params
  deriving DecidableEq, Repr

/-- The machine right after RESET with an empty program and the default parameters (R35, R240): pc and fault as the spec
states them, the stack empty, memory the font, and zero or false for every OPEN value.
DESIGN CHOICE for the OPEN values (log entries 1 and 2) and for the model's own fields (log entries 4 and 5); unsafe. -/
def State.reset : State where
  v := Config.defaultParams.initV
  i := Config.defaultParams.initI
  pc := BitVec.ofNat 16 Config.programBase
  stack := []
  dt := Config.defaultParams.initDt
  st := Config.defaultParams.initSt
  mem := []
  fb := Config.defaultParams.initFb
  key := Config.defaultParams.initKey
  fault := none
  draws := 0
  schedule := .cycles
  params := Config.defaultParams

end Sys2Proof.Machine
end

