-- ==== Sys2Proof/Machine/Ops.lean ====
section
/-! DEFINITION. The operations over registers, memory, stack, framebuffer, latch and random source (spec/10_state.md,
spec/20_memory.md), taking a fault (spec/60_exceptions.md R201), and where a fetched word stands. -/

namespace Sys2Proof.Machine

/-- The outcome of one step or one meaning. -/
abbrev Result := Host.Outcome State Fault Refusal

/-! ### Registers -/

/-- V[r] (R7, R20). -/
def State.readV (s : State) (r : Reg) : Byte := s.v[r.val]'r.isLt
/-- V[r] <- b (R7, R20). -/
def State.setV (s : State) (r : Reg) (b : Byte) : State := { s with v := s.v.set r.val b r.isLt }
/-- I <- a (R23). -/
def State.setI (s : State) (a : Word) : State := { s with i := a }
/-- pc <- a (R24). -/
def State.setPc (s : State) (a : Word) : State := { s with pc := a }
/-- The call stack replaced (R26). -/
def State.setStack (s : State) (k : List Word) : State := { s with stack := k }
/-- DT <- b (R28). -/
def State.setDt (s : State) (b : Byte) : State := { s with dt := b }
/-- ST <- b (R28). -/
def State.setSt (s : State) (b : Byte) : State := { s with st := b }
/-- Memory replaced (R50). -/
def State.setMem (s : State) (m : Memory) : State := { s with mem := m }
/-- The framebuffer replaced (R29). -/
def State.setFb (s : State) (f : Config.Framebuffer) : State := { s with fb := f }
/-- Key[k] <- held (R30, R213). -/
def State.setKey (s : State) (k : Fin 16) (held : Bool) : State := { s with key := s.key.set k.val held k.isLt }
/-- The fault record written (R32). -/
def State.setFault (s : State) (f : Option FaultRecord) : State := { s with fault := f }
/-- The model's count of random draws (log entry 5). -/
def State.setDraws (s : State) (n : Nat) : State := { s with draws := n }
/-- The host's operations from here on (log entry 4). -/
def State.setSchedule (s : State) (ops : Schedule) : State := { s with schedule := ops }

/-- Key[k] (R7, R30). -/
def State.readKey (s : State) (k : Fin 16) : Bool := s.key[k.val]'k.isLt

/-- The cycle's own advance of pc by one instruction word, and the skip action (R70, R120). -/
def State.advancePc (s : State) : State := s.setPc (s.pc + 2)
/-- The rewind of FX0A (R172), and the way back to the faulting instruction's address (R201). -/
def State.rewindPc (s : State) : State := s.setPc (s.pc - 2)

/-! ### Memory: one byte at an address below 4096 is the only access (R50 to R53, R59) -/

/-- The byte at an address: the one memory lists, else what an unlisted address reads as. -/
def Memory.read : Memory → Nat → Byte
  | [], a => Config.resetByte a
  | c :: rest, a => if c.1 = a then c.2 else Memory.read rest a

/-- One byte replaced, in canonical form: a byte equal to what an unlisted address reads as is not listed. -/
def Memory.write : Memory → Nat → Byte → Memory
  | [], a, b => if b = Config.resetByte a then [] else [(a, b)]
  | c :: rest, a, b =>
    if a < c.1 then (if b = Config.resetByte a then c :: rest else (a, b) :: c :: rest)
    else if c.1 = a then (if b = Config.resetByte a then rest else (a, b) :: rest)
    else c :: Memory.write rest a b

/-- The canonical form: addresses strictly rising, inside the address space, no entry equal to what an unlisted
address reads as. Equal memories are then equal lists. -/
abbrev Memory.wf (m : Memory) : Prop :=
  m.Pairwise (fun c d => c.1 < d.1) ∧ ∀ c ∈ m, c.1 < Config.memSize ∧ c.2 ≠ Config.resetByte c.1

/-- The bytes at ascending addresses from base (R57). -/
def Memory.readRange (m : Memory) (base : Nat) : Nat → List Byte
  | 0 => []
  | n + 1 => Memory.read m base :: Memory.readRange m (base + 1) n

/-- Bytes written one after the other at ascending addresses from base (R57). -/
def Memory.writeRange (m : Memory) (base : Nat) : List Byte → Memory
  | [] => m
  | b :: rest => Memory.writeRange (Memory.write m base b) (base + 1) rest

/-- The bounds check over all addresses of one instruction, made before it changes any state (R51, R60): the fault at
the lowest out-of-range address, addresses being unbounded naturals. -/
def boundsFault (kind : AccessKind) (base n : Nat) : Option Fault :=
  if n = 0 ∨ base + n ≤ Config.memSize then none else some (.memOob (max base Config.memSize) kind)

/-- The byte of memory at an address, as a state holds it. -/
def State.readByte (s : State) (a : Nat) : Byte := Memory.read s.mem a

/-- MemRead of n bytes from base, all or none (R52, R60). -/
def memRead (s : State) (kind : AccessKind) (base n : Nat) : Except Fault (List Byte) :=
  match boundsFault kind base n with
  | some f => .error f
  | none => .ok (Memory.readRange s.mem base n)

/-- MemWrite of bytes from base, all or none (R53, R60). -/
def memWrite (s : State) (base : Nat) (bytes : List Byte) : Except Fault State :=
  match boundsFault .write base bytes.length with
  | some f => .error f
  | none => .ok (s.setMem (Memory.writeRange s.mem base bytes))

/-- Fetch: the two bytes at pc and pc + 1 as a big-endian word (R58). -/
def fetch (s : State) : Except Fault Word :=
  match boundsFault .fetch s.pc.toNat 2 with
  | some f => .error f
  | none => .ok (wordOfBytes (s.readByte s.pc.toNat) (s.readByte (s.pc.toNat + 1)))

/-! ### The call stack (R27) -/

/-- Push: appends, or STACK_OVERFLOW at a bounded capacity (R27). -/
def push (s : State) (a : Word) : Except Fault State :=
  match s.params.stackCapacity with
  | some c => if s.stack.length = c then .error (.stackOverflow s.stack.length) else .ok (s.setStack (s.stack ++ [a]))
  | none => .ok (s.setStack (s.stack ++ [a]))

/-- Pop: removes and returns the most recently pushed address, or STACK_UNDERFLOW (R27). -/
def pop (s : State) : Except Fault (Word × State) :=
  match s.stack.getLast? with
  | some a => .ok (a, s.setStack s.stack.dropLast)
  | none => .error .stackUnderflow

/-! ### The framebuffer and the blitter (spec/40_display.md) -/

/-- FB[x][y] of a framebuffer; false outside the grid, where no pixel is (R29). -/
def getPixel (f : Config.Framebuffer) (x y : Nat) : Bool :=
  if h : x < Config.fbWidth ∧ y < Config.fbHeight then (f[y]'h.2)[x]'h.1 else false

/-- FB[x][y] <- b; nothing outside the grid (R29). -/
def setPixel (f : Config.Framebuffer) (x y : Nat) (b : Bool) : Config.Framebuffer :=
  if h : x < Config.fbWidth ∧ y < Config.fbHeight then f.set y ((f[y]'h.2).set x b h.1) h.2 else f

/-- FB[x][y] of a state (R29). -/
def State.pixel (s : State) (x y : Nat) : Bool := getPixel s.fb x y

/-- A sprite being drawn: the framebuffer so far, and whether a lit pixel has been turned off (R103). -/
structure Blit where
  /-- The framebuffer so far. -/
  fb : Config.Framebuffer
  /-- Whether a flip has turned a lit pixel off. -/
  hit : Bool
  deriving DecidableEq, Repr

/-- One pixel: flipped when its sprite bit is 1 and it lies on the grid, clipped otherwise (R101, R103, R104). -/
def blitPixel (px py : Nat) (lit : Bool) (b : Blit) : Blit :=
  if lit ∧ px < Config.fbWidth ∧ py < Config.fbHeight then
    { fb := setPixel b.fb px py (!getPixel b.fb px py), hit := b.hit || getPixel b.fb px py }
  else b

/-- The bit of a sprite byte for column b: the most significant bit is the leftmost (R102). -/
def spriteBit (byte : Byte) (b : Nat) : Bool := byte.getLsbD (7 - b)

/-- One sprite row: the 8 bits from the most significant (R101, R102). -/
def blitRow (ox py : Nat) (byte : Byte) (b : Blit) : Blit :=
  (List.range 8).foldl (fun acc k => blitPixel (ox + k) py (spriteBit byte k) acc) b

/-- All rows, the first byte the top row (R101, R102). -/
def blitRows (ox py : Nat) : List Byte → Blit → Blit
  | [], b => b
  | byte :: rest, b => blitRows ox (py + 1) rest (blitRow ox py byte b)

/-! ### The key latch (R30) -/

/-- Whether some key is held (R172). -/
def State.anyKeyHeld (s : State) : Bool := s.key.toList.any id

/-- The lowest held key, when one is held (R172). -/
def State.lowestHeldKey (s : State) : Option Nat := s.key.toList.findIdx? id

/-! ### The random source (R161) -/

/-- DrawRandom4: the next free value, and the state that has made the draw (R161). -/
def drawRandom4 (s : State) : Nibble × State := (Config.rngDraw s.draws, s.setDraws (s.draws + 1))

/-! ### Faults (spec/60_exceptions.md) -/

/-- The code number of a cause (R200). -/
def faultCode : Fault → Nat
  | .memOob _ _ => 1
  | .stackUnderflow => 2
  | .stackOverflow _ => 3
  | .keyRange _ => 4
  | .indexOverflow _ => 5

/-- Taking a fault: pc holds the faulting instruction's address, the fault record is written, and nothing else changes
(R201). `pc0` is that address. -/
def takeFault (f : Fault) (pc0 : Word) (word : Option Word) (s : State) : State :=
  (s.setPc pc0).setFault (some { cause := f, pc := pc0, word := word })

/-- The end of an instruction: its result, or the fault it raised. While it executes pc is its address plus 2 (R24), so
its address is pc - 2; its word is its encoding (R201; log entry 7). `s` is the state the instruction began in. -/
def finish (i : Instr) (s : State) : Except Fault State → Result
  | .ok t => .next t
  | .error f => .next (takeFault f (s.pc - 2) (some (encode i)) s)

/-! ### The host's operations (R210) -/

/-- The same schedule with some operations before it. -/
def Schedule.after (c : Schedule) (ops : List HostOp) : Schedule := ⟨ops ++ c.ops, c.later⟩

/-- The host issues its next operation: the operation, and what it issues from then on (R210). -/
def Schedule.issue : Schedule → HostOp × Schedule
  | ⟨op :: rest, l⟩ => (op, ⟨rest, l⟩)
  | ⟨[], .repeating first rest⟩ => (first, ⟨rest, .repeating first rest⟩)
  | ⟨[], .free n⟩ => (Config.hostOp n, ⟨[], .free (n + 1)⟩)

/-- The n-th operation of an infinite sequence, counted from 0. -/
def HostTail.nth : HostTail → Nat → HostOp
  | .repeating first rest, n => (first :: rest).getD (n % (rest.length + 1)) first
  | .free k, n => Config.hostOp (k + n)

/-- The n-th operation the host issues, counted from 0. -/
def Schedule.nth (c : Schedule) (n : Nat) : HostOp :=
  if h : n < c.ops.length then c.ops[n] else c.later.nth (n - c.ops.length)

/-! ### Where a fetched word stands -/

/-- The address `placeFetchWord` stores at: pc where a word can be fetched there, else the program base (log entry 9). -/
def fetchAddress (s : State) : Word :=
  if s.pc.toNat + 2 ≤ Config.memSize then s.pc else BitVec.ofNat 16 Config.programBase

/-- A word of the opcode table stored where the next cycle fetches, and that cycle made the next operation: pc in range,
no fault held, CYCLE the host's next operation (log entry 9). -/
def placeFetchWord (s : State) (nbits w : Nat) : State :=
  { s with
    pc := fetchAddress s
    mem := Memory.writeRange s.mem (fetchAddress s).toNat (tableBytes nbits w)
    fault := none
    schedule := if s.schedule = .cycles then .cycles else s.schedule.after [.cycle] }

end Sys2Proof.Machine
end

