-- ==== Sys2Proof/Machine/Flags.lean ====
section
/-! DEFINITION. The values instructions write to VF (spec/10_state.md R21, spec/43_alu.md R141), and the order of a flag
write and a result write (spec/00_scope.md R9, spec/43_alu.md R142). -/

namespace Sys2Proof.Machine

/-- A flag as the byte VF holds: 1 or 0. -/
def flagByte (b : Bool) : Byte := if b then 1 else 0

/-- The carry of an addition: sum > 255 (R136). -/
def carryOut (a b : Byte) : Bool := decide (a.toNat + b.toNat > 255)

/-- No borrow: minuend >= subtrahend (R137, R139; the 0 of 8XY7 is the spec's decision D5). -/
def noBorrow (a b : Byte) : Bool := decide (a.toNat ≥ b.toNat)

/-- The bit a right shift by one drops (R138). -/
def shiftedOutRight (a : Byte) : Bool := a.getLsbD 0

/-- The bit a left shift by one drops (R140). -/
def shiftedOutLeft (a : Byte) : Bool := a.getLsbD 7

/-- VF first, then the destination, so that the result stays when the destination is VF (R9, R142). -/
def writeFlagThen (s : State) (flag : Bool) (r : Reg) (b : Byte) : State := (s.setV VF (flagByte flag)).setV r b

end Sys2Proof.Machine
end

