-- ==== Sys2Proof/Machine/Alu.lean ====
section
/-! DEFINITION. Register loads and arithmetic (spec/43_alu.md). Operands are read before any write, VF is written before
the destination (R9, R142). -/

namespace Sys2Proof.Machine

/-- 6XNN: VX <- NN (R130). -/
def execLdByte (x : Reg) (nn : Byte) (s : State) : Result := .next (s.setV x nn)

/-- 7XNN: VX <- (VX + NN) mod 256, VF unchanged (R131). -/
def execAddByte (x : Reg) (nn : Byte) (s : State) : Result := .next (s.setV x (s.readV x + nn))

/-- 8XY0: VX <- VY (R132). -/
def execLdReg (x y : Reg) (s : State) : Result := .next (s.setV x (s.readV y))

/-- 8XY1: VX <- VX OR VY (R133). -/
def execOrReg (x y : Reg) (s : State) : Result := .next (s.setV x (s.readV x ||| s.readV y))

/-- 8XY2: VX <- VX AND VY (R134). -/
def execAndReg (x y : Reg) (s : State) : Result := .next (s.setV x (s.readV x &&& s.readV y))

/-- 8XY3: VX <- VX XOR VY (R135). -/
def execXorReg (x y : Reg) (s : State) : Result := .next (s.setV x (s.readV x ^^^ s.readV y))

/-- 8XY4: VF <- carry; VX <- (VX + VY) mod 256 (R136). -/
def execAddReg (x y : Reg) (s : State) : Result :=
  .next (writeFlagThen s (carryOut (s.readV x) (s.readV y)) x (s.readV x + s.readV y))

/-- 8XY5: VF <- no borrow; VX <- (VX - VY) mod 256 (R137). -/
def execSubReg (x y : Reg) (s : State) : Result :=
  .next (writeFlagThen s (noBorrow (s.readV x) (s.readV y)) x (s.readV x - s.readV y))

/-- 8XY6: VF <- VX bit 0; VX <- VX div 2; Y is not read (R138). -/
def execShr (x _y : Reg) (s : State) : Result :=
  .next (writeFlagThen s (shiftedOutRight (s.readV x)) x (s.readV x >>> 1))

/-- 8XY7: VF <- no borrow; VY <- (VY - VX) mod 256: the destination is VY (R139). -/
def execSubny (x y : Reg) (s : State) : Result :=
  .next (writeFlagThen s (noBorrow (s.readV y) (s.readV x)) y (s.readV y - s.readV x))

/-- 8XYE: VF <- VX bit 7; VX <- (VX * 2) mod 256; Y is not read (R140). -/
def execShl (x _y : Reg) (s : State) : Result :=
  .next (writeFlagThen s (shiftedOutLeft (s.readV x)) x (s.readV x <<< 1))

end Sys2Proof.Machine
end

