-- ==== Sys2Proof/Machine/Operands.lean ====
section
/-! DEFINITION. The operand forms: addresses, the indirect address I + k, glyph addresses, decimal digits, register
blocks and key indexes (spec/30_encoding.md R74, spec/44_index_memory.md, spec/46_input.md). -/

namespace Sys2Proof.Machine

/-- An address field as a 16-bit address, zero-extended (R74). -/
def addrOperand (nnn : Addr12) : Word := nnn.setWidth 16

/-- The effective address I + k, without wrap (R156). -/
def effectiveAddr (s : State) (k : Nat) : Nat := s.i.toNat + k

/-- The address of the glyph a register's low nibble selects: 0x050 + 5 * (VX AND 0x0F) (R152). -/
def glyphAddr (d : Byte) : Word := BitVec.ofNat 16 (Config.fontBase + 5 * (d &&& 0x0F).toNat)

/-- The decimal digits of a byte: hundreds, tens, ones (R153). -/
def bcdDigits (d : Byte) : List Byte :=
  [BitVec.ofNat 8 (d.toNat / 100), BitVec.ofNat 8 (d.toNat / 10 % 10), BitVec.ofNat 8 (d.toNat % 10)]

/-- The registers V0..VX inclusive, as FX55 stores them (R154). -/
def blockOf (s : State) (x : Reg) : List Byte := s.v.toList.take (x.val + 1)

/-- Registers from number k on receive the bytes in order, as FX65 loads them (R155). -/
def loadBlock (v : Vector Byte 16) (k : Nat) : List Byte → Vector Byte 16
  | [] => v
  | b :: rest => if h : k < 16 then loadBlock (v.set k b h) (k + 1) rest else v

/-- The key index a register holds, or KEY_RANGE above 15 (R170, R171). -/
def keyOperand (s : State) (x : Reg) : Except Fault (Fin 16) :=
  if h : (s.readV x).toNat < 16 then .ok ⟨(s.readV x).toNat, h⟩ else .error (.keyRange (s.readV x))

/-- A skip taken or not (R120). -/
def skipIf (c : Bool) (s : State) : State := if c then s.advancePc else s

end Sys2Proof.Machine
end

