-- ==== Sys2Proof/Machine/Control.lean ====
section
/-! DEFINITION. Control transfer (spec/41_control_transfer.md). While an instruction executes, pc is its address plus 2
(R24). -/

namespace Sys2Proof.Machine

/-- 00EE: pc <- Pop() (R110). -/
def execRet (s : State) : Result := finish .ret s ((pop s).map fun r => r.2.setPc r.1)

/-- 1NNN: pc <- NNN (R111). -/
def execJp (nnn : Addr12) (s : State) : Result := .next (s.setPc (addrOperand nnn))

/-- 2NNN: Push(pc); pc <- NNN (R112). -/
def execCall (nnn : Addr12) (s : State) : Result :=
  finish (.call nnn) s ((push s s.pc).map fun t => t.setPc (addrOperand nnn))

/-- BNNN: pc <- NNN + V0, 16 bits (R113). -/
def execJpV0 (nnn : Addr12) (s : State) : Result :=
  .next (s.setPc (addrOperand nnn + (s.readV V0).setWidth 16))

end Sys2Proof.Machine
end

