-- ==== Sys2Proof/Machine/Display.lean ====
section
/-! DEFINITION. The display instructions (spec/40_display.md). -/

namespace Sys2Proof.Machine

/-- 00E0: every pixel false (R100). -/
def execCls (s : State) : Result := .next (s.setFb Config.blankFb)

/-- The drawing of DXYN once its sprite bytes are read: the origin wraps, the body clips, VF tells of a collision; the
origin is sampled before VF is written (R101 to R104). -/
def drawSprite (s : State) (x y : Reg) (sprite : List Byte) : State :=
  let b := blitRows ((s.readV x).toNat % Config.fbWidth) ((s.readV y).toNat % Config.fbHeight) sprite ⟨s.fb, false⟩
  (s.setFb b.fb).setV VF (flagByte b.hit)

/-- DXYN: all N bytes are read and checked, then the sprite is drawn (R101). -/
def execDrw (x y : Reg) (n : Nibble) (s : State) : Result :=
  finish (.drw x y n) s ((memRead s .read (effectiveAddr s 0) n.toNat).map (drawSprite s x y))

end Sys2Proof.Machine
end

