-- ==== Sys2Proof/Machine/Index.lean ====
section
/-! DEFINITION. The index register and memory transfers (spec/44_index_memory.md). -/

namespace Sys2Proof.Machine

/-- ANNN: I <- NNN (R150). -/
def execLdI (nnn : Addr12) (s : State) : Result := .next (s.setI (addrOperand nnn))

/-- The sum of FX1E, or INDEX_OVERFLOW past 0xFFFF (R151). -/
def indexSum (s : State) (x : Reg) : Except Fault Word :=
  if s.i.toNat + (s.readV x).toNat > 0xFFFF then .error (.indexOverflow (s.i.toNat + (s.readV x).toNat))
  else .ok (BitVec.ofNat 16 (s.i.toNat + (s.readV x).toNat))

/-- FX1E: I <- I + VX, VF unchanged (R151). -/
def execAddI (x : Reg) (s : State) : Result := finish (.addI x) s ((indexSum s x).map s.setI)

/-- FX29: I <- 0x050 + 5 * (VX AND 0x0F) (R152). -/
def execLdF (x : Reg) (s : State) : Result := .next (s.setI (glyphAddr (s.readV x)))

/-- FX33: the three decimal digits of VX to memory at I, I+1, I+2 (R153). -/
def execLdB (x : Reg) (s : State) : Result :=
  finish (.ldB x) s (memWrite s (effectiveAddr s 0) (bcdDigits (s.readV x)))

/-- FX55: V0..VX to memory at I..I+X; I is unchanged (R154). -/
def execStoreRegs (x : Reg) (s : State) : Result :=
  finish (.storeRegs x) s (memWrite s (effectiveAddr s 0) (blockOf s x))

/-- FX65: memory at I..I+X to V0..VX; I is unchanged (R155). -/
def execLoadRegs (x : Reg) (s : State) : Result :=
  finish (.loadRegs x) s ((memRead s .read (effectiveAddr s 0) (x.val + 1)).map
    fun bytes => { s with v := loadBlock s.v 0 bytes })

end Sys2Proof.Machine
end

