-- ==== Sys2Proof/Machine/Input.lean ====
section
/-! DEFINITION. The key input instructions (spec/46_input.md). -/

namespace Sys2Proof.Machine

/-- EX9E: skip if key VX is held (R170). -/
def execSkp (x : Reg) (s : State) : Result :=
  finish (.skp x) s ((keyOperand s x).map fun k => skipIf (s.readKey k) s)

/-- EXA1: skip if key VX is released (R171). -/
def execSknp (x : Reg) (s : State) : Result :=
  finish (.sknp x) s ((keyOperand s x).map fun k => skipIf (!s.readKey k) s)

/-- FX0A: pc back to this instruction while no key is held; then nothing, or VX <- the lowest held key where the parameter
FX0A_STORE_KEY is true (R172). -/
def execWaitk (x : Reg) (s : State) : Result :=
  match s.lowestHeldKey with
  | none => .next s.rewindPc
  | some k => .next (if s.params.storeKey then s.setV x (BitVec.ofNat 8 k) else s)

end Sys2Proof.Machine
end

