-- ==== Sys2Proof/Machine/NoOp.lean ====
section
/-! DEFINITION. The unrecognized encoding (spec/30_encoding.md R79). -/

namespace Sys2Proof.Machine

/-- Any other word: nothing; the cycle has already advanced pc (R79). -/
def execUnrecognized (_w : Word) (s : State) : Result := .next s

end Sys2Proof.Machine
end

