-- ==== Sys2Proof/Machine/Random.lean ====
section
/-! DEFINITION. The random number instruction (spec/45_rng.md). -/

namespace Sys2Proof.Machine

/-- CXNN: VX <- draw AND NN, one draw of a free 4-bit value (R160, R161). -/
def execRnd4 (x : Reg) (nn : Byte) (s : State) : Result :=
  .next ((drawRandom4 s).2.setV x ((drawRandom4 s).1.setWidth 8 &&& nn))

end Sys2Proof.Machine
end

