-- ==== Sys2Proof/Machine/Skips.lean ====
section
/-! DEFINITION. Conditional skips on registers (spec/42_skips.md). -/

namespace Sys2Proof.Machine

/-- 3XNN: skip if VX = NN (R121). -/
def execSeByte (x : Reg) (nn : Byte) (s : State) : Result := .next (skipIf (s.readV x == nn) s)

/-- 4XNN: skip if VX != NN (R122). -/
def execSneByte (x : Reg) (nn : Byte) (s : State) : Result := .next (skipIf (s.readV x != nn) s)

/-- 5XY0: skip if VX = VY (R123). -/
def execSeReg (x y : Reg) (s : State) : Result := .next (skipIf (s.readV x == s.readV y) s)

/-- 9XY0: skip if VX != VY (R124). -/
def execSneReg (x y : Reg) (s : State) : Result := .next (skipIf (s.readV x != s.readV y) s)

end Sys2Proof.Machine
end

