-- ==== Sys2Proof/Machine/Timers.lean ====
section
/-! DEFINITION. The timer instructions (spec/47_timers.md) and the timer unit's countdown (spec/60_exceptions.md R211). -/

namespace Sys2Proof.Machine

/-- FX07: VX <- DT (R180). -/
def execLdVxDt (x : Reg) (s : State) : Result := .next (s.setV x s.dt)

/-- FX15: DT <- VX (R181). -/
def execLdDtVx (x : Reg) (s : State) : Result := .next (s.setDt (s.readV x))

/-- FX18: ST <- VX (R182). -/
def execLdStVx (x : Reg) (s : State) : Result := .next (s.setSt (s.readV x))

/-- One counter's decrement, floor at zero (R211). -/
def countDown (b : Byte) : Byte := if b = 0 then 0 else b - 1

/-- TICK: both timers count down by one, not below zero (R211). -/
def tick (s : State) : State := (s.setDt (countDown s.dt)).setSt (countDown s.st)

end Sys2Proof.Machine
end

