-- ==== Sys2Proof/Machine/Cycle.lean ====
section
/-! DEFINITION. The host's operations on the core (spec/60_exceptions.md R210 to R216): CYCLE (R70), TICK (R211), KEY
(R213), RESET (spec/70_reset_and_hazards.md R240) and the read ports; and which one comes next. -/

namespace Sys2Proof.Machine

/-- CYCLE: a faulted core does nothing; otherwise fetch, advance pc by 2, execute; a FETCH fault records no word
(R70, R201, R203). -/
def cycle (s : State) : Result :=
  match s.fault with
  | some _ => .next s
  | none =>
    match fetch s with
    | .error f => .next (takeFault f s.pc none s)
    | .ok w => exec (decodeWord w) s.advancePc

/-- Memory after RESET: INIT_MEM, then the font at 0x050, then the program at 0x200 (R240). -/
def launchMemory (p : Config.Params) (program : List Byte) : Memory :=
  Memory.writeRange (Memory.writeRange p.initMem Config.fontBase (Config.fontBytes p)) Config.programBase program

/-- RESET(program) for a choice of the OPEN parameters: a fresh core (R35, R240), or the refusal of a program of more than
3584 bytes (R67, D20). -/
def launch (p : Config.Params) (program : List Byte) : Except Refusal State :=
  if program.length ≤ Config.maxProgram then
    .ok { v := p.initV, i := p.initI, pc := BitVec.ofNat 16 Config.programBase, stack := [], dt := p.initDt,
          st := p.initSt, mem := launchMemory p program, fb := p.initFb, key := p.initKey, fault := none,
          draws := 0, schedule := .cycles, params := p }
  else .error (.programTooLong program.length)

/-- RESET on a core that exists: a fresh core with the machine's parameters. What is not the core's own goes on: the host's
further operations, and the count of draws, so that the new core's draws are free values of their own (R240, R162;
log entries 4 and 5). -/
def resetCore (s : State) (program : List Byte) : Result :=
  match launch s.params program with
  | .ok t => .next ((t.setDraws s.draws).setSchedule s.schedule)
  | .error r => .refused r

/-- READ_FB: the 2048 pixels, row by row from the top, each row from the left (R214). -/
def readFb (s : State) : List Bool := s.fb.toList.flatMap fun row => row.toList

/-- READ_SOUND: the value of ST (R215). -/
def readSound (s : State) : Byte := s.st

/-- The tone is on exactly when ST > 0 (R215). -/
def soundOn (s : State) : Bool := decide (0 < (readSound s).toNat)

/-- READ_FAULT: the fault record (R216). -/
def readFault (s : State) : Option FaultRecord := s.fault

/-- One host operation, which runs to completion before the next (R210, R216). The read ports change nothing. -/
def perform (op : HostOp) (s : State) : Result :=
  match op with
  | .cycle => cycle s
  | .tick => .next (tick s)
  | .key k held => .next (s.setKey k held)
  | .reset program => resetCore s program
  | .readFb => .next s
  | .readSound => .next s
  | .readFault => .next s

/-- The host's operations one after the other, any finite sequence being admissible (R210). -/
def performAll : List HostOp → State → Result
  | [], s => .next s
  | op :: rest, s =>
    match perform op s with
    | .next t => performAll rest t
    | .fault f => .fault f
    | .refused r => .refused r

/-- The next operation of the host, performed on the core (R210; log entry 4). -/
def nextOperation (s : State) : Result := perform s.schedule.issue.1 (s.setSchedule s.schedule.issue.2)

end Sys2Proof.Machine
end

