-- ==== Sys2Proof/Machine/Step.lean ====
section
/-! DEFINITION. One step of the machine: one operation of the host on the core (spec/60_exceptions.md R210). -/

namespace Sys2Proof.Machine

/-- One step: the host's next operation, whichever its schedule says (R210; log entry 4). -/
def step (s : State) : Host.Outcome State Fault Refusal := nextOperation s

/-- The state with an opcode-table word stored where the next step fetches, so that the very next step runs it
(log entry 9). -/
def State.withFetchWord (s : State) (nbits w : Nat) : State := placeFetchWord s nbits w

end Sys2Proof.Machine
end

