-- ==== Sys2Proof/Safety.lean ====
section
/-! DEFINITION. The terms claims are stated in: when a run has ended or faulted (spec/70_reset_and_hazards.md R253,
spec/60_exceptions.md R203), what an instruction leaves unchanged, and the invariant of the machine. -/

namespace Sys2Proof.Machine

/-- The word at pc, high byte first (R57). -/
def wordAt (s : State) : Word := wordOfBytes (s.readByte s.pc.toNat) (s.readByte (s.pc.toNat + 1))

/-- A final state: no fault, pc <= 0xFFE, and the word at pc is a jump to pc, `HALT` (R253, R86). -/
def isFinal (s : State) : Bool :=
  s.fault.isNone && decide (s.pc.toNat ≤ 0xFFE) &&
  wordAt s == (0x1000#16 ||| s.pc)

/-- What a run has come to (R203, R253). -/
inductive RunStatus where
  /-- Neither final nor faulted: a core waiting in FX0A is running too (R253). -/
  | running
  /-- The end of a run (R253). -/
  | final
  /-- The outcome 'fault', never the end of a run: it refutes every claim that assumes no fault (R203). -/
  | faulted (r : FaultRecord)
  deriving DecidableEq, Repr

/-- The status of a run whose core is in this state (R203, R253). -/
def runStatus (s : State) : RunStatus :=
  match s.fault with
  | some r => .faulted r
  | none => if isFinal s then .final else .running

/-- The fields of State, by name, for frames. -/
inductive Field where
  /-- V0..VF. -/
  | v
  /-- I. -/
  | i
  /-- pc. -/
  | pc
  /-- The call stack. -/
  | stack
  /-- DT. -/
  | dt
  /-- ST. -/
  | st
  /-- Memory. -/
  | mem
  /-- The framebuffer. -/
  | fb
  /-- The key latch. -/
  | key
  /-- The fault record. -/
  | fault
  /-- The model's count of draws. -/
  | draws
  /-- The host's operations from here on. -/
  | schedule
  /-- The OPEN parameters. -/
  | params
  deriving DecidableEq, Repr

/-- One field reads in `t` as in `s`: every register, every byte of memory, every pixel, every key. -/
def SameField (s t : State) : Field → Prop
  | .v => ∀ r, t.readV r = s.readV r
  | .i => t.i = s.i
  | .pc => t.pc = s.pc
  | .stack => t.stack = s.stack
  | .dt => t.dt = s.dt
  | .st => t.st = s.st
  | .mem => ∀ a, t.readByte a = s.readByte a
  | .fb => ∀ x y, t.pixel x y = s.pixel x y
  | .key => ∀ k, t.readKey k = s.readKey k
  | .fault => t.fault = s.fault
  | .draws => t.draws = s.draws
  | .schedule => t.schedule = s.schedule
  | .params => t.params = s.params

/-- The frame of an instruction: every field but those named reads as before. -/
def Frame (written : List Field) (s t : State) : Prop := ∀ f, f ∉ written → SameField s t f

/-- The frame over registers: every register but those named reads as before. -/
def FrameV (written : List Reg) (s t : State) : Prop := ∀ r, r ∉ written → t.readV r = s.readV r

/-- The frame over memory: every address outside the `n` bytes from `base` reads as before. -/
def FrameMem (base n : Nat) (s t : State) : Prop := ∀ a, a < base ∨ base + n ≤ a → t.readByte a = s.readByte a

/-- What a cycle that raises `f` at `s` leaves (R201): `s` is the state while the instruction executes, pc its address plus
2; pc holds the instruction's address again, the record holds cause, address and word, and every other field reads as
before. -/
def Faulted (f : Fault) (word : Option Word) (s t : State) : Prop :=
  t.pc = s.pc - 2 ∧ t.fault = some ⟨f, s.pc - 2, word⟩ ∧ Frame [.pc, .fault] s t

/-- The word an instruction's row gives, as a number, decodes to it and is its encoding. -/
def EncodedAs (i : Instr) (n : Nat) : Prop := decodeWord (BitVec.ofNat 16 n) = i ∧ (encode i).toNat = n

/-- DXYN at `s` flips the pixel (px, py): it is the target of a 1 bit b of some sprite row r, the origin taken modulo
64 and 32, and lies on the grid (R101, R102, R104). -/
def Drawn (s : State) (x y : Reg) (n : Nibble) (px py : Nat) : Prop :=
  ∃ r b, r < n.toNat ∧ b < 8 ∧ px = (s.readV x).toNat % 64 + b ∧ py = (s.readV y).toNat % 32 + r ∧
    px < 64 ∧ py < 32 ∧ (s.readByte (s.i.toNat + r)).getLsbD (7 - b) = true

/-- The fault R200's table gives an instruction at a state (causes 1 to 5, a successful fetch taken for granted). -/
def faultOfInstr (i : Instr) (s : State) : Option Fault :=
  match i with
  | .drw _ _ n =>
    if n.toNat ≠ 0 ∧ s.i.toNat + n.toNat > 4096 then some (.memOob (max s.i.toNat 4096) .read) else none
  | .ldB _ => if s.i.toNat + 2 ≥ 4096 then some (.memOob (max s.i.toNat 4096) .write) else none
  | .storeRegs x => if s.i.toNat + x.val ≥ 4096 then some (.memOob (max s.i.toNat 4096) .write) else none
  | .loadRegs x => if s.i.toNat + x.val ≥ 4096 then some (.memOob (max s.i.toNat 4096) .read) else none
  | .ret => if s.stack = [] then some .stackUnderflow else none
  | .call _ => if s.params.stackCapacity = some s.stack.length then some (.stackOverflow s.stack.length) else none
  | .skp x => if (s.readV x).toNat > 15 then some (.keyRange (s.readV x)) else none
  | .sknp x => if (s.readV x).toNat > 15 then some (.keyRange (s.readV x)) else none
  | .addI x =>
    if s.i.toNat + (s.readV x).toNat > 0xFFFF then some (.indexOverflow (s.i.toNat + (s.readV x).toNat)) else none
  | _ => none

/-- The fault R200's table gives a whole cycle: the fetch's, else the fetched instruction's (R202). -/
def faultOfCycle (s : State) : Option Fault :=
  if s.pc.toNat ≥ 4095 then some (.memOob (max s.pc.toNat 4096) .fetch)
  else faultOfInstr (decodeWord (wordAt s)) s

/-- An instruction writes VF as a flag (R21): 8XY4, 8XY5, 8XY6, 8XY7, 8XYE and DXYN. -/
def writesFlag : Instr → Bool
  | .addReg _ _ => true
  | .subReg _ _ => true
  | .shr _ _ => true
  | .subny _ _ => true
  | .shl _ _ => true
  | .drw _ _ _ => true
  | _ => false

/-- An instruction that can leave pc elsewhere than at the word after its own, apart from a fault (R22): jumps, call,
return, skips and FX0A. -/
def writesPc : Instr → Bool
  | .ret => true
  | .jp _ => true
  | .call _ => true
  | .jpV0 _ => true
  | .seByte _ _ => true
  | .sneByte _ _ => true
  | .seReg _ _ => true
  | .sneReg _ _ => true
  | .skp _ => true
  | .sknp _ => true
  | .waitk _ => true
  | _ => false

/-- The registers an instruction names as destinations (R22), the flag write apart. -/
def destinations (p : Config.Params) : Instr → List Reg
  | .ldByte x _ => [x]
  | .addByte x _ => [x]
  | .ldReg x _ => [x]
  | .orReg x _ => [x]
  | .andReg x _ => [x]
  | .xorReg x _ => [x]
  | .addReg x _ => [x]
  | .subReg x _ => [x]
  | .shr x _ => [x]
  | .shl x _ => [x]
  | .subny _ y => [y]
  | .rnd4 x _ => [x]
  | .ldVxDt x => [x]
  | .waitk x => if p.storeKey then [x] else []
  | .loadRegs x => (List.finRange 16).filter fun r => decide (r ≤ x)
  | _ => []

/-- What RESET(program) leaves, for a choice of the OPEN parameters: INIT_MEM, over it the font, over it the program; V, I,
DT, ST, FB and Key at their INIT_ values; the stack empty, no fault, pc at 0x200 (R240, R35). -/
structure FreshCore (p : Config.Params) (program : List Byte) (t : State) : Prop where
  /-- pc is the reset vector. -/
  pc : t.pc = 0x200
  /-- The stack is empty. -/
  stack : t.stack = []
  /-- No fault is recorded. -/
  fault : t.fault = none
  /-- INIT_V. -/
  v : t.v = p.initV
  /-- INIT_I. -/
  i : t.i = p.initI
  /-- INIT_DT. -/
  dt : t.dt = p.initDt
  /-- INIT_ST. -/
  st : t.st = p.initSt
  /-- INIT_FB. -/
  fb : t.fb = p.initFb
  /-- INIT_KEY. -/
  key : t.key = p.initKey
  /-- The parameters stay. -/
  params : t.params = p
  /-- The program from 0x200 on. -/
  programBytes : ∀ k (h : k < program.length), t.readByte (0x200 + k) = program[k]
  /-- Glyph 0, which the source gives (R56). -/
  glyph0 : ∀ k, k < 5 → t.readByte (0x050 + k) = [0xF0#8, 0x90, 0x90, 0x90, 0xF0].getD k 0
  /-- Glyphs 1 to F, the parameter FONT (R56). -/
  glyphs : ∀ k (h : k < 75), t.readByte (0x055 + k) = p.glyphs[k]
  /-- INIT_MEM everywhere else. -/
  rest : ∀ a, (a < 0x050 ∨ (0x0A0 ≤ a ∧ a < 0x200) ∨ 0x200 + program.length ≤ a) →
    t.readByte a = Memory.read p.initMem a

/-- The invariant of the machine: memory canonical, also the one RESET starts from; pc never above 0x10FE and no return
address above 4096 (R25); the stack within a bounded capacity (R27); a held fault record at pc (R201). -/
structure StateInv (s : State) : Prop where
  /-- Memory is canonical (R50). -/
  memWf : Memory.wf s.mem
  /-- INIT_MEM is canonical (R35). -/
  initWf : Memory.wf s.params.initMem
  /-- The largest value any rule can write to pc is 0x10FE (R25). -/
  pcLe : s.pc.toNat ≤ 0x10FE
  /-- A return address is the address of a fetched word plus 2 (R25, R112). -/
  stackLe : ∀ a ∈ s.stack, a.toNat ≤ Config.memSize
  /-- A bounded stack stays within its capacity (R27). -/
  depthLe : ∀ c, s.params.stackCapacity = some c → s.stack.length ≤ c
  /-- pc of a faulted core holds the address of the faulting instruction (R201). -/
  faultPc : ∀ r, s.fault = some r → r.pc = s.pc

end Sys2Proof.Machine
end

