-- ==== Sys2Proof/Certificates/Slice0/Obligations.lean ====
section
/-! DEFINITION. The statements for the provers, from the numbered rules of spec/. In every statement about exec, `s` is the
state while the instruction executes: pc is its address plus 2 (spec/10_state.md R24). A docstring that names a decision
D<n> says that the rule rests on a choice of the spec's own (spec/92_eei_decisions.md); one that calls a rule derived says
that the spec marks it as its own inference. -/

open Sys2Proof Sys2Proof.Machine

/-! ### Reset and program load -/

/-- R240 and R35 (decision D15): the host operation RESET(program), on a core in any state, and the launch it makes
for every choice of the OPEN parameters: INIT_MEM, over it the font at 0x050, over it the program at 0x200; V, I, DT,
ST, FB and Key at their INIT_ values; the stack empty, no fault, pc at 0x200. The premise is the invariant's clause
that INIT_MEM is canonical. The count of draws and the host's schedule, the model's own fields (log entries 4 and 5),
go on. -/
def Obligations.LaunchBuildsFreshCore : Prop :=
  (∀ (p : Config.Params) (program : List Byte), Memory.wf p.initMem → program.length ≤ 3584 →
    ∃ t, launch p program = .ok t ∧ FreshCore p program t) ∧
  ∀ (s : State) (program : List Byte), Memory.wf s.params.initMem → program.length ≤ 3584 →
    ∃ t, perform (.reset program) s = .next t ∧ FreshCore s.params program t ∧
      t.draws = s.draws ∧ t.schedule = s.schedule

/-- R67 and decision D20: RESET with more than 3584 bytes is refused by name, whatever the core holds. -/
def Obligations.OversizedProgramIsRefused : Prop :=
  ∀ (s : State) (program : List Byte),
    (3584 < program.length ↔ perform (.reset program) s = .refused (.programTooLong program.length)) ∧
    (program.length ≤ 3584 → ∃ t, perform (.reset program) s = .next t ∧ t.pc = 0x200 ∧ t.fault = none)

/-- R240: RESET builds a fresh core: from two cores with the same parameters, whatever else they hold, it gives cores
alike in every field of the spec's (the count of draws and the host's schedule are the model's own fields, log entries 4
and 5). -/
def Obligations.ResetForgetsTheOldCore : Prop :=
  ∀ (s s' t : State) (program : List Byte), s.params = s'.params → perform (.reset program) s = .next t →
    ∃ t', perform (.reset program) s' = .next t' ∧ Frame [.draws, .schedule] t t'

/-- The model's State.reset is RESET of an empty program with the default parameters, and the font's first glyph, the
pc, the stack and the fault record are as R35 states them. The values of V, I, DT, ST, FB, Key and of memory outside
the font are the model's choice (log entries 1 and 2); the count of draws is left out, since no statement rests on it
(log entry 5). -/
def Obligations.ResetIsLaunchOfEmptyProgram : Prop :=
  (∃ t, launch Config.defaultParams [] = .ok t ∧ ∀ n, t.setDraws n = State.reset.setDraws n) ∧
  State.reset.pc = 0x200 ∧ State.reset.stack = [] ∧ State.reset.fault = none ∧
  (List.range 5).map (fun k => State.reset.readByte (0x050 + k)) = [0xF0#8, 0x90, 0x90, 0x90, 0xF0]

/-! ### The invariant -/

/-- The state after reset meets the invariant (values the spec leaves OPEN are those of log entries 1 and 2). -/
def Obligations.ResetMeetsInvariant : Prop := StateInv State.reset

/-- The model's invariant (R25 and R27 derived, R201 decision D7, log entry 11): every step, whichever operation the
host issues, keeps the invariant: memory canonical, pc at most 0x10FE, return addresses at most 4096, the stack within
a bounded capacity, a fault record at pc. -/
def Obligations.StepKeepsInvariant : Prop := ∀ s t, StateInv s → step s = .next t → StateInv t

/-! ### Encoding and decoding -/

/-- Decoding the encoding of every well-formed instruction gives it back, every operand at every value. -/
def Obligations.DecodeOfEncode : Prop := ∀ i, WellFormed i = true → decodeWord (encode i) = i

/-- Encoding the decoding of every word gives the word back, and the decoder answers only well-formed instructions. -/
def Obligations.EncodeOfDecode : Prop := ∀ w, encode (decodeWord w) = w ∧ WellFormed (decodeWord w) = true

/-- R80 (derived) with R78: a word's instruction is that of the unique row of the opcode table, of 34, whose (w AND
mask) = match; the catch-all is taken exactly when no row matches. -/
def Obligations.UniqueRowSelects : Prop :=
  opcodeRows.length = 34 ∧
  ∀ (w : Word) (k : Nat) (h : k < opcodeRows.length),
    opcodeRows[k].selects w = true ↔ rowIndex (decodeWord w) = some k

/-- R79 (decision D3): the words that select none of the 34 forms are exactly those R79 lists, each is a no-op, and
none faults. -/
def Obligations.UnrecognizedWordIsNoOp : Prop :=
  ∀ w : Word, (unrecognizedWord w = true ↔ decodeWord w = .unrecognized w) ∧
    (∀ w', decodeWord w = .unrecognized w' → w' = w) ∧
    ∀ s, ∃ t, exec (.unrecognized w) s = .next t ∧ Frame [] s t

/-- A few words written out from R73 and the opcode table, as bytes in memory order (R57), decode to what they stand
for. -/
def Obligations.SampleWordsDecode : Prop :=
  decodeBytes [0x00, 0xEE] = .ok (.ret, []) ∧ decodeBytes [0x12, 0x34] = .ok (.jp 0x234, []) ∧
  decodeBytes [0x83, 0xA7] = .ok (.subny 3 10, []) ∧ decodeBytes [0xDA, 0xB5] = .ok (.drw 10 11 5, []) ∧
  decodeBytes [0xFE, 0x55] = .ok (.storeRegs 14, []) ∧ decodeBytes [0x51, 0x21] = .ok (.unrecognized 0x5121, [])

/-! ### The cycle -/

/-- R70: when the host's next operation is CYCLE, the core holds no fault and the two bytes at pc and pc + 1 decode to
an instruction, the step is its meaning at the state whose pc is past its word; a faulted core does nothing. What the
step adds is the host's schedule, the model's own field (log entry 4), from which the operation is taken; a host that
issues CYCLE for ever stays as it is. -/
def Obligations.StepRunsDecodedInstruction : Prop :=
  (∀ s i, s.fault = none → s.pc.toNat ≤ 4094 →
    decodeBytes [s.readByte s.pc.toNat, s.readByte (s.pc.toNat + 1)] = .ok (i, []) →
    (s.schedule = .cycles → step s = exec i (s.setPc (s.pc + 2))) ∧
    (s.schedule.issue.1 = .cycle → step s = exec i ((s.setSchedule s.schedule.issue.2).setPc (s.pc + 2)))) ∧
  ∀ s r, s.fault = some r → s.schedule.issue.1 = .cycle → step s = .next (s.setSchedule s.schedule.issue.2)

/-- R58: the fetch succeeds exactly when pc <= 4094, with the byte at pc high; otherwise the cycle faults MEM_OOB
(FETCH) at the first address out of range, no word recorded, pc and all else as before. No alignment is required of pc
(decisions D6, D16). -/
def Obligations.FetchIsBigEndianOrFaults : Prop :=
  ∀ s, (s.pc.toNat ≤ 4094 → ∃ w, fetch s = .ok w ∧
      w.toNat = (s.readByte s.pc.toNat).toNat * 256 + (s.readByte (s.pc.toNat + 1)).toNat) ∧
    (4095 ≤ s.pc.toNat → fetch s = .error (.memOob (if s.pc.toNat ≥ 4096 then s.pc.toNat else 4096) .fetch)) ∧
    (4095 ≤ s.pc.toNat → s.fault = none → ∃ t, perform .cycle s = .next t ∧
      t.fault = some ⟨.memOob (max s.pc.toNat 4096) .fetch, s.pc, none⟩ ∧ Frame [.fault] s t)

/-- The host's use of a placed word (log entry 9): the very next step runs exactly the instruction the decoder reads
from it, at every state whose memory is canonical, and of memory only the two bytes of the word have changed. -/
def Obligations.PlacedWordRunsNext : Prop :=
  ∀ (s : State) (w : Word), Memory.wf s.mem →
    ∃ u, step (s.withFetchWord 16 w.toNat) = exec (decodeWord w) u ∧
      decodeTableWord 16 w.toNat = some (decodeWord w) ∧
      u.pc = (s.withFetchWord 16 w.toNat).pc + 2 ∧ u.fault = none ∧ Frame [.pc, .mem, .fault] s u ∧
      FrameMem (fetchAddress s).toNat 2 s u ∧
      (u.readByte (fetchAddress s).toNat).toNat = w.toNat / 256 ∧
      (u.readByte ((fetchAddress s).toNat + 1)).toNat = w.toNat % 256

/-! ### Faults -/

/-- R200 (decisions D6, D8 to D11) with R202 (derived): a cycle of a core that holds no fault always answers a next
state, and it records exactly the fault R200's table gives, with its code and information, and none otherwise. -/
def Obligations.FaultCausesAreExact : Prop :=
  (∀ s, s.fault = none → ∃ t, perform .cycle s = .next t ∧ t.fault.map FaultRecord.cause = faultOfCycle s) ∧
  (∀ i s, s.fault = none → ∃ t, exec i s = .next t ∧ t.fault.map FaultRecord.cause = faultOfInstr i s) ∧
  (∀ a k, faultCode (.memOob a k) = 1) ∧ faultCode .stackUnderflow = 2 ∧ (∀ d, faultCode (.stackOverflow d) = 3) ∧
  (∀ v, faultCode (.keyRange v) = 4) ∧ (∀ n, faultCode (.indexOverflow n) = 5)

/-- R201 (decision D7): a cycle that faults changes nothing but the fault record, which holds the cause raised with
its information, the faulting instruction's address and the fetched word, or none for a FETCH fault. -/
def Obligations.FaultsArePrecise : Prop :=
  ∀ s t r, s.fault = none → perform .cycle s = .next t → t.fault = some r →
    t = s.setFault (some r) ∧ faultOfCycle s = some r.cause ∧ r.pc = s.pc ∧
    ((∃ a, r.cause = .memOob a .fetch) ↔ r.word = none) ∧ (∀ w, r.word = some w → w = wordAt s)

/-- R203 (decision D7): a fault record is kept by every operation but RESET; CYCLE on a faulted core does nothing;
TICK, KEY and the read ports work as on any core; RESET with a program that fits clears it. -/
def Obligations.FaultIsSticky : Prop :=
  ∀ s r, s.fault = some r →
    perform .cycle s = .next s ∧
    (∃ t, perform .tick s = .next t ∧ t.fault = some r ∧ t.dt.toNat = s.dt.toNat - 1 ∧ t.st.toNat = s.st.toNat - 1) ∧
    (∀ k held, ∃ t, perform (.key k held) s = .next t ∧ t.fault = some r ∧ t.readKey k = held) ∧
    perform .readFb s = .next s ∧ perform .readSound s = .next s ∧ perform .readFault s = .next s ∧
    readFault s = some r ∧
    (∀ program, program.length ≤ 3584 → ∃ t, perform (.reset program) s = .next t ∧ t.fault = none) ∧
    runStatus s = .faulted r

/-! ### Display -/

/-- R100: 00E0 turns every pixel off and changes nothing else. -/
def Obligations.ClearScreen : Prop :=
  EncodedAs .cls 0x00E0 ∧
  ∀ s, ∃ t, exec .cls s = .next t ∧ (∀ x y, t.pixel x y = false) ∧ Frame [.fb] s t

/-- R101 (decisions D4, D6, D19), R102, R103, R104: DXYN with its sprite in memory flips exactly the drawn pixels,
clipping at the edges, and VF is 1 exactly when a drawn pixel was lit; otherwise it faults MEM_OOB (READ) and draws
nothing. N = 0 draws nothing and clears VF. -/
def Obligations.DrawFlipsSpritePixels : Prop :=
  ∀ (x y : Reg) (n : Nibble) (s : State),
    EncodedAs (.drw x y n) (0xD000 + x.val * 0x100 + y.val * 0x10 + n.toNat) ∧
    (n.toNat = 0 ∨ s.i.toNat + n.toNat ≤ 4096 → ∃ t, exec (.drw x y n) s = .next t ∧
      (∀ px py, Drawn s x y n px py → t.pixel px py = !s.pixel px py) ∧
      (∀ px py, ¬Drawn s x y n px py → t.pixel px py = s.pixel px py) ∧
      ((∃ px py, Drawn s x y n px py ∧ s.pixel px py = true) → t.readV VF = 1) ∧
      (¬(∃ px py, Drawn s x y n px py ∧ s.pixel px py = true) → t.readV VF = 0) ∧
      FrameV [VF] s t ∧ Frame [.v, .fb] s t) ∧
    (n.toNat ≠ 0 → 4096 < s.i.toNat + n.toNat → ∃ t, exec (.drw x y n) s = .next t ∧
      Faulted (.memOob (max s.i.toNat 4096) .read) (some (encode (.drw x y n))) s t)

/-- The source's property of drawing the same sprite twice (spec/95_test_vectors.md S7), from any framebuffer: with an
origin not held in VF, the second draw restores every pixel, and it reports a collision when the first drew a pixel and
reported none. -/
def Obligations.DrawingTwiceRestores : Prop :=
  ∀ (x y : Reg) (n : Nibble) (s t : State), x ≠ VF → y ≠ VF → s.i.toNat + n.toNat ≤ 4096 →
    exec (.drw x y n) s = .next t →
    ∃ u, exec (.drw x y n) t = .next u ∧ (∀ px py, u.pixel px py = s.pixel px py) ∧
      (t.readV VF = 0 → (∃ px py, Drawn s x y n px py) → u.readV VF = 1)

/-- R106: only 00E0 and DXYN change the framebuffer, and no instruction but DXYN reads it: with other pixels, everything
else comes out the same. -/
def Obligations.FramebufferWriters : Prop :=
  (∀ i s t, exec i s = .next t → (∃ x y, t.pixel x y ≠ s.pixel x y) → i = .cls ∨ ∃ x y n, i = .drw x y n) ∧
  ∀ i s t f, (∀ x y n, i ≠ .drw x y n) → exec i s = .next t →
    ∃ u, exec i (s.setFb f) = .next u ∧ Frame [.fb] t u

/-! ### Control transfer -/

/-- R110 (decision D8): 00EE pops the last address of the stack into pc, as it is, or faults STACK_UNDERFLOW on an
empty stack. -/
def Obligations.ReturnPopsStack : Prop :=
  EncodedAs .ret 0x00EE ∧
  (∀ s k a, s.stack = k ++ [a] → ∃ t, exec .ret s = .next t ∧ t.pc = a ∧ t.stack = k ∧ Frame [.pc, .stack] s t) ∧
  (∀ s, s.stack = [] → ∃ t, exec .ret s = .next t ∧ Faulted .stackUnderflow (some (encode .ret)) s t)

/-- R111 and R113: 1NNN sets pc to NNN, BNNN to NNN + V0, which never wraps; nothing else changes. -/
def Obligations.JumpsSetPc : Prop :=
  ∀ (nnn : Addr12) (s : State),
    EncodedAs (.jp nnn) (0x1000 + nnn.toNat) ∧ EncodedAs (.jpV0 nnn) (0xB000 + nnn.toNat) ∧
    (∃ t, exec (.jp nnn) s = .next t ∧ t.pc.toNat = nnn.toNat ∧ Frame [.pc] s t) ∧
    (∃ t, exec (.jpV0 nnn) s = .next t ∧ t.pc.toNat = nnn.toNat + (s.readV V0).toNat ∧ Frame [.pc] s t)

/-- R112 (decision D9): 2NNN appends pc to the stack and sets pc to NNN, or faults STACK_OVERFLOW at a bounded
capacity. -/
def Obligations.CallPushesPc : Prop :=
  ∀ (nnn : Addr12) (s : State),
    EncodedAs (.call nnn) (0x2000 + nnn.toNat) ∧
    (s.params.stackCapacity ≠ some s.stack.length → ∃ t, exec (.call nnn) s = .next t ∧
      t.stack = s.stack ++ [s.pc] ∧ t.pc.toNat = nnn.toNat ∧ Frame [.pc, .stack] s t) ∧
    (s.params.stackCapacity = some s.stack.length → ∃ t, exec (.call nnn) s = .next t ∧
      Faulted (.stackOverflow s.stack.length) (some (encode (.call nnn))) s t)

/-- A call followed by code that leaves the stack as the call left it, followed by a return, comes back to the
instruction after the call with the stack as before (R110, R112, R114). -/
def Obligations.ReturnAfterCall : Prop :=
  ∀ (nnn : Addr12) (s t t' : State), s.fault = none → exec (.call nnn) s = .next t → t.fault = none →
    t'.stack = t.stack → ∃ u, exec .ret t' = .next u ∧ u.pc = s.pc ∧ u.stack = s.stack

/-! ### Skips -/

/-- R121 and R122: 3XNN skips when VX = NN, 4XNN when it does not; nothing but pc changes. -/
def Obligations.SkipsOnImmediate : Prop :=
  ∀ (x : Reg) (nn : Byte) (s : State),
    EncodedAs (.seByte x nn) (0x3000 + x.val * 0x100 + nn.toNat) ∧
    EncodedAs (.sneByte x nn) (0x4000 + x.val * 0x100 + nn.toNat) ∧
    (∃ t, exec (.seByte x nn) s = .next t ∧
      (s.readV x = nn → t.pc = s.pc + 2) ∧ (s.readV x ≠ nn → t.pc = s.pc) ∧ Frame [.pc] s t) ∧
    (∃ t, exec (.sneByte x nn) s = .next t ∧
      (s.readV x ≠ nn → t.pc = s.pc + 2) ∧ (s.readV x = nn → t.pc = s.pc) ∧ Frame [.pc] s t)

/-- R123 and R124 (decision D3): 5XY0 skips when VX = VY, 9XY0 when it does not; nothing but pc changes. -/
def Obligations.SkipsOnRegisters : Prop :=
  ∀ (x y : Reg) (s : State),
    EncodedAs (.seReg x y) (0x5000 + x.val * 0x100 + y.val * 0x10) ∧
    EncodedAs (.sneReg x y) (0x9000 + x.val * 0x100 + y.val * 0x10) ∧
    (∃ t, exec (.seReg x y) s = .next t ∧
      (s.readV x = s.readV y → t.pc = s.pc + 2) ∧ (s.readV x ≠ s.readV y → t.pc = s.pc) ∧ Frame [.pc] s t) ∧
    (∃ t, exec (.sneReg x y) s = .next t ∧
      (s.readV x ≠ s.readV y → t.pc = s.pc + 2) ∧ (s.readV x = s.readV y → t.pc = s.pc) ∧ Frame [.pc] s t)

/-! ### Register loads and arithmetic -/

/-- R130 and R131: 6XNN loads NN; 7XNN adds NN modulo 256 and writes no flag. -/
def Obligations.ImmediateLoadAndAdd : Prop :=
  ∀ (x : Reg) (nn : Byte) (s : State),
    EncodedAs (.ldByte x nn) (0x6000 + x.val * 0x100 + nn.toNat) ∧
    EncodedAs (.addByte x nn) (0x7000 + x.val * 0x100 + nn.toNat) ∧
    (∃ t, exec (.ldByte x nn) s = .next t ∧ t.readV x = nn ∧ FrameV [x] s t ∧ Frame [.v] s t) ∧
    (∃ t, exec (.addByte x nn) s = .next t ∧
      (t.readV x).toNat = ((s.readV x).toNat + nn.toNat) % 256 ∧ FrameV [x] s t ∧ Frame [.v] s t)

/-- R132 to R135: 8XY0 copies VY; 8XY1, 8XY2 and 8XY3 are OR, AND and XOR bit by bit; none writes a flag. -/
def Obligations.CopyAndLogic : Prop :=
  ∀ (x y : Reg) (s : State),
    EncodedAs (.ldReg x y) (0x8000 + x.val * 0x100 + y.val * 0x10) ∧
    EncodedAs (.orReg x y) (0x8001 + x.val * 0x100 + y.val * 0x10) ∧
    EncodedAs (.andReg x y) (0x8002 + x.val * 0x100 + y.val * 0x10) ∧
    EncodedAs (.xorReg x y) (0x8003 + x.val * 0x100 + y.val * 0x10) ∧
    (∃ t, exec (.ldReg x y) s = .next t ∧ t.readV x = s.readV y ∧ FrameV [x] s t ∧ Frame [.v] s t) ∧
    (∃ t, exec (.orReg x y) s = .next t ∧ FrameV [x] s t ∧ Frame [.v] s t ∧
      ∀ k, (t.readV x).getLsbD k = ((s.readV x).getLsbD k || (s.readV y).getLsbD k)) ∧
    (∃ t, exec (.andReg x y) s = .next t ∧ FrameV [x] s t ∧ Frame [.v] s t ∧
      ∀ k, (t.readV x).getLsbD k = ((s.readV x).getLsbD k && (s.readV y).getLsbD k)) ∧
    (∃ t, exec (.xorReg x y) s = .next t ∧ FrameV [x] s t ∧ Frame [.v] s t ∧
      ∀ k, (t.readV x).getLsbD k = ((s.readV x).getLsbD k ^^ (s.readV y).getLsbD k))

/-- R136 (decision D4): 8XY4 sets VX to the sum modulo 256 and, unless VX is VF itself, VF to the carry. -/
def Obligations.AddSetsCarry : Prop :=
  ∀ (x y : Reg) (s : State),
    EncodedAs (.addReg x y) (0x8004 + x.val * 0x100 + y.val * 0x10) ∧
    ∃ t, exec (.addReg x y) s = .next t ∧
      (t.readV x).toNat = ((s.readV x).toNat + (s.readV y).toNat) % 256 ∧
      (x ≠ VF → t.readV VF = if (s.readV x).toNat + (s.readV y).toNat > 255 then 1 else 0) ∧
      FrameV [x, VF] s t ∧ Frame [.v] s t

/-- R137 (decisions D4, D5): 8XY5 sets VX to the difference modulo 256 and, unless VX is VF itself, VF to 1 exactly
when VX >= VY. -/
def Obligations.SubtractSetsNoBorrow : Prop :=
  ∀ (x y : Reg) (s : State),
    EncodedAs (.subReg x y) (0x8005 + x.val * 0x100 + y.val * 0x10) ∧
    ∃ t, exec (.subReg x y) s = .next t ∧
      (t.readV x).toNat = ((s.readV x).toNat + 256 - (s.readV y).toNat) % 256 ∧
      (x ≠ VF → t.readV VF = if (s.readV x).toNat ≥ (s.readV y).toNat then 1 else 0) ∧
      FrameV [x, VF] s t ∧ Frame [.v] s t

/-- R139 (decisions D4, D5): 8XY7 writes VY, not VX: VY - VX modulo 256 and, unless VY is VF itself, VF to 1 exactly
when VY >= VX. -/
def Obligations.ReverseSubtractWritesVy : Prop :=
  ∀ (x y : Reg) (s : State),
    EncodedAs (.subny x y) (0x8007 + x.val * 0x100 + y.val * 0x10) ∧
    ∃ t, exec (.subny x y) s = .next t ∧
      (t.readV y).toNat = ((s.readV y).toNat + 256 - (s.readV x).toNat) % 256 ∧
      (y ≠ VF → t.readV VF = if (s.readV y).toNat ≥ (s.readV x).toNat then 1 else 0) ∧
      FrameV [y, VF] s t ∧ Frame [.v] s t

/-- R138 and R140 (decision D4): 8XY6 and 8XYE shift VX by one bit, whatever VY holds, and, unless VX is VF itself,
set VF to the bit shifted out. -/
def Obligations.ShiftsSetShiftedOutBit : Prop :=
  ∀ (x y : Reg) (s : State),
    EncodedAs (.shr x y) (0x8006 + x.val * 0x100 + y.val * 0x10) ∧
    EncodedAs (.shl x y) (0x800E + x.val * 0x100 + y.val * 0x10) ∧
    (∃ t, exec (.shr x y) s = .next t ∧ (t.readV x).toNat = (s.readV x).toNat / 2 ∧
      (x ≠ VF → (t.readV VF).toNat = (s.readV x).toNat % 2) ∧ FrameV [x, VF] s t ∧ Frame [.v] s t) ∧
    (∃ t, exec (.shl x y) s = .next t ∧ (t.readV x).toNat = (s.readV x).toNat * 2 % 256 ∧
      (x ≠ VF → (t.readV VF).toNat = (s.readV x).toNat / 128) ∧ FrameV [x, VF] s t ∧ Frame [.v] s t)

/-- R142 (derived, decision D4): the final VF of each flag-writing instruction when VF is an operand, row by row of
the summary's table. -/
def Obligations.FlagAliasing : Prop :=
  ∀ (x y : Reg) (s : State) (a b f : Nat), a = (s.readV x).toNat → b = (s.readV y).toNat → f = (s.readV VF).toNat →
    (∃ t, exec (.addReg VF y) s = .next t ∧ (t.readV VF).toNat = (f + b) % 256) ∧
    (x ≠ VF → ∃ t, exec (.addReg x VF) s = .next t ∧ (t.readV VF).toNat = if a + f > 255 then 1 else 0) ∧
    (∃ t, exec (.addReg VF VF) s = .next t ∧ (t.readV VF).toNat = 2 * f % 256) ∧
    (∃ t, exec (.subReg VF y) s = .next t ∧ (t.readV VF).toNat = (f + 256 - b) % 256) ∧
    (x ≠ VF → ∃ t, exec (.subReg x VF) s = .next t ∧ (t.readV VF).toNat = if a ≥ f then 1 else 0) ∧
    (∃ t, exec (.subReg VF VF) s = .next t ∧ (t.readV VF).toNat = 0) ∧
    (∃ t, exec (.shr VF y) s = .next t ∧ (t.readV VF).toNat = f / 2) ∧
    (x ≠ VF → ∃ t, exec (.shr x VF) s = .next t ∧ (t.readV VF).toNat = a % 2) ∧
    (y ≠ VF → ∃ t, exec (.subny VF y) s = .next t ∧ (t.readV VF).toNat = (if b ≥ f then 1 else 0) ∧
      (t.readV y).toNat = (b + 256 - f) % 256) ∧
    (x ≠ VF → ∃ t, exec (.subny x VF) s = .next t ∧ (t.readV VF).toNat = (f + 256 - a) % 256) ∧
    (∃ t, exec (.subny VF VF) s = .next t ∧ (t.readV VF).toNat = 0) ∧
    (∃ t, exec (.shl VF y) s = .next t ∧ (t.readV VF).toNat = 2 * f % 256) ∧
    (x ≠ VF → ∃ t, exec (.shl x VF) s = .next t ∧ (t.readV VF).toNat = a / 128)

/-! ### Whole-machine rules over all instructions -/

/-- R21 with R22 (derived): an instruction changes a register only if it names it as a destination, or the register is
VF and the instruction is one of the six flag writers. -/
def Obligations.RegisterWriters : Prop :=
  ∀ i s t r, exec i s = .next t → t.readV r ≠ s.readV r →
    r ∈ destinations s.params i ∨ (r = VF ∧ writesFlag i = true)

/-- R22 (derived), R23, R26, R28, R30, R33: which instructions can change I, the stack, DT, ST and memory; none
changes the key latch, the OPEN parameters or the host's schedule (the last a field of the model's own, log entry 4).
-/
def Obligations.FieldWriters : Prop :=
  ∀ i s t, exec i s = .next t →
    (t.i ≠ s.i → (∃ nnn, i = .ldI nnn) ∨ (∃ x, i = .addI x) ∨ ∃ x, i = .ldF x) ∧
    (t.stack ≠ s.stack → i = .ret ∨ ∃ nnn, i = .call nnn) ∧
    (t.dt ≠ s.dt → ∃ x, i = .ldDtVx x) ∧
    (t.st ≠ s.st → ∃ x, i = .ldStVx x) ∧
    (t.mem ≠ s.mem → (∃ x, i = .ldB x) ∨ ∃ x, i = .storeRegs x) ∧
    t.key = s.key ∧ t.params = s.params ∧ t.schedule = s.schedule

/-- R22 (derived), R24: an instruction that completes without a fault leaves pc at the word after its own unless it is a
jump, a call, a return, one of the six skips or FX0A. -/
def Obligations.PcWriters : Prop :=
  ∀ i s t, s.fault = none → exec i s = .next t → t.fault = none → t.pc ≠ s.pc → writesPc i = true

/-- R28, R212: no instruction reads ST: with another sound timer, everything else comes out the same. -/
def Obligations.SoundTimerIsUnread : Prop :=
  ∀ i s t b, exec i s = .next t → ∃ u, exec i (s.setSt b) = .next u ∧ Frame [.st] t u

/-- R161 (decision D13): each CXNN makes exactly one draw; no other instruction draws, whatever the value drawn. The
count of draws is the model's own field (log entry 5). -/
def Obligations.OnlyRandomDraws : Prop :=
  ∀ i s t, exec i s = .next t →
    ((∃ x nn, i = .rnd4 x nn) → t.draws = s.draws + 1) ∧ ((¬∃ x nn, i = .rnd4 x nn) → t.draws = s.draws)

/-! ### The index register and memory -/

/-- R150 and R152: ANNN sets I to NNN; FX29 sets it to 0x050 + 5 * (VX AND 0xF). -/
def Obligations.IndexLoads : Prop :=
  ∀ (nnn : Addr12) (x : Reg) (s : State),
    EncodedAs (.ldI nnn) (0xA000 + nnn.toNat) ∧ EncodedAs (.ldF x) (0xF029 + x.val * 0x100) ∧
    (∃ t, exec (.ldI nnn) s = .next t ∧ t.i.toNat = nnn.toNat ∧ Frame [.i] s t) ∧
    (∃ t, exec (.ldF x) s = .next t ∧ t.i.toNat = 0x050 + 5 * ((s.readV x).toNat % 16) ∧ Frame [.i] s t)

/-- R151 (decision D11): FX1E adds VX to I without touching VF, or faults INDEX_OVERFLOW past 0xFFFF. -/
def Obligations.IndexAdd : Prop :=
  ∀ (x : Reg) (s : State),
    EncodedAs (.addI x) (0xF01E + x.val * 0x100) ∧
    (s.i.toNat + (s.readV x).toNat ≤ 0xFFFF → ∃ t, exec (.addI x) s = .next t ∧
      t.i.toNat = s.i.toNat + (s.readV x).toNat ∧ Frame [.i] s t) ∧
    (0xFFFF < s.i.toNat + (s.readV x).toNat → ∃ t, exec (.addI x) s = .next t ∧
      Faulted (.indexOverflow (s.i.toNat + (s.readV x).toNat)) (some (encode (.addI x))) s t)

/-- R153 (decision D6): FX33 stores the hundreds, tens and ones of VX at I, I+1, I+2, and every other byte, I and all
else stay; past the end of memory it faults MEM_OOB (WRITE) and writes nothing. -/
def Obligations.StoreDecimalDigits : Prop :=
  ∀ (x : Reg) (s : State), Memory.wf s.mem →
    EncodedAs (.ldB x) (0xF033 + x.val * 0x100) ∧
    (s.i.toNat + 2 < 4096 → ∃ t, exec (.ldB x) s = .next t ∧
      (t.readByte s.i.toNat).toNat = (s.readV x).toNat / 100 ∧
      (t.readByte (s.i.toNat + 1)).toNat = (s.readV x).toNat / 10 % 10 ∧
      (t.readByte (s.i.toNat + 2)).toNat = (s.readV x).toNat % 10 ∧
      FrameMem s.i.toNat 3 s t ∧ Frame [.mem] s t) ∧
    (4096 ≤ s.i.toNat + 2 → ∃ t, exec (.ldB x) s = .next t ∧
      Faulted (.memOob (max s.i.toNat 4096) .write) (some (encode (.ldB x))) s t)

/-- R154 (decisions D6, D23): FX55 stores V0..VX at I..I+X, and every other byte, I and all else stay; past the end of
memory it faults MEM_OOB (WRITE) and writes nothing. -/
def Obligations.StoreRegisters : Prop :=
  ∀ (x : Reg) (s : State), Memory.wf s.mem →
    EncodedAs (.storeRegs x) (0xF055 + x.val * 0x100) ∧
    (s.i.toNat + x.val < 4096 → ∃ t, exec (.storeRegs x) s = .next t ∧
      (∀ k : Reg, k ≤ x → t.readByte (s.i.toNat + k.val) = s.readV k) ∧
      FrameMem s.i.toNat (x.val + 1) s t ∧ Frame [.mem] s t) ∧
    (4096 ≤ s.i.toNat + x.val → ∃ t, exec (.storeRegs x) s = .next t ∧
      Faulted (.memOob (max s.i.toNat 4096) .write) (some (encode (.storeRegs x))) s t)

/-- R155 (decisions D6, D23): FX65 loads V0..VX from I..I+X, and every other register, I and all else stay; past the
end of memory it faults MEM_OOB (READ) and writes no register. -/
def Obligations.LoadRegisters : Prop :=
  ∀ (x : Reg) (s : State),
    EncodedAs (.loadRegs x) (0xF065 + x.val * 0x100) ∧
    (s.i.toNat + x.val < 4096 → ∃ t, exec (.loadRegs x) s = .next t ∧
      (∀ k : Reg, k ≤ x → t.readV k = s.readByte (s.i.toNat + k.val)) ∧
      (∀ k : Reg, x < k → t.readV k = s.readV k) ∧ Frame [.v] s t) ∧
    (4096 ≤ s.i.toNat + x.val → ∃ t, exec (.loadRegs x) s = .next t ∧
      Faulted (.memOob (max s.i.toNat 4096) .read) (some (encode (.loadRegs x))) s t)

/-- The source's round trip (spec/95_test_vectors.md S11) for every X: FX55, then any change that leaves memory and I,
then FX65 gives the registers back. -/
def Obligations.StoreThenLoadRegisters : Prop :=
  ∀ (x : Reg) (s t t' : State), Memory.wf s.mem → s.i.toNat + x.val < 4096 →
    exec (.storeRegs x) s = .next t → t'.mem = t.mem → t'.i = t.i →
    ∃ u, exec (.loadRegs x) t' = .next u ∧ ∀ k : Reg, k ≤ x → u.readV k = s.readV k

/-- R64 (derived, decision D17): a byte that FX55 or FX33 stores is seen by every later fetch of its address, with
nothing between: while memory stays as the store left it, a fetch whose high byte stands there reads it as the high
byte of the word, and one whose low byte stands there as the low byte. -/
def Obligations.StoredBytesAreFetched : Prop :=
  (∀ (x k : Reg) (s t u : State), Memory.wf s.mem → s.i.toNat + x.val < 4096 → k ≤ x →
    exec (.storeRegs x) s = .next t → u.mem = t.mem → u.pc.toNat ≤ 4094 →
    (u.pc.toNat = s.i.toNat + k.val → ∃ w, fetch u = .ok w ∧ w.toNat / 256 = (s.readV k).toNat) ∧
    (u.pc.toNat + 1 = s.i.toNat + k.val → ∃ w, fetch u = .ok w ∧ w.toNat % 256 = (s.readV k).toNat)) ∧
  ∀ (x : Reg) (k : Nat) (s t u : State), Memory.wf s.mem → s.i.toNat + 2 < 4096 → k < 3 →
    exec (.ldB x) s = .next t → u.mem = t.mem → u.pc.toNat ≤ 4094 →
    (u.pc.toNat = s.i.toNat + k → ∃ w, fetch u = .ok w ∧ w.toNat / 256 = (s.readV x).toNat / 10 ^ (2 - k) % 10) ∧
    (u.pc.toNat + 1 = s.i.toNat + k → ∃ w, fetch u = .ok w ∧ w.toNat % 256 = (s.readV x).toNat / 10 ^ (2 - k) % 10)

/-- R61 (derived): a read returns the last byte written to the address, and a write changes no other address. That a
write inside the address space keeps memory canonical is a clause about the model's own representation (log entry 11,
a design choice), and no rule of the spec. -/
def Obligations.MemoryReadsLastWrite : Prop :=
  ∀ (m : Memory) (a : Nat) (b : Byte), Memory.wf m → a < 4096 →
    Memory.wf (Memory.write m a b) ∧ Memory.read (Memory.write m a b) a = b ∧
    ∀ c, c ≠ a → Memory.read (Memory.write m a b) c = Memory.read m c

/-- The model's canonical form of memory (log entry 11) is one: canonical memories that read alike at every address of
the address space are equal. -/
def Obligations.CanonicalMemoryIsUnique : Prop :=
  ∀ m m' : Memory, Memory.wf m → Memory.wf m' →
    (∀ a, a < 4096 → Memory.read m a = Memory.read m' a) → m = m'

/-! ### Random, input, timers -/

/-- R160 (decision D13): CXNN sets VX to the draw AND NN, so at most 15 whatever the draw, and writes no flag. The draw
is the free value of log entry 5; nothing is assumed of it. -/
def Obligations.RandomIsMaskedDraw : Prop :=
  ∀ (x : Reg) (nn : Byte) (s : State),
    EncodedAs (.rnd4 x nn) (0xC000 + x.val * 0x100 + nn.toNat) ∧
    ∃ t, exec (.rnd4 x nn) s = .next t ∧
      (t.readV x).toNat = (Config.rngDraw s.draws).toNat &&& nn.toNat ∧ (t.readV x).toNat ≤ 15 ∧
      FrameV [x] s t ∧ Frame [.v, .draws] s t

/-- R170 and R171 (decision D10): EX9E skips when key VX is held, EXA1 when it is released; above 15 both fault
KEY_RANGE. -/
def Obligations.KeySkips : Prop :=
  ∀ (x : Reg) (s : State),
    EncodedAs (.skp x) (0xE09E + x.val * 0x100) ∧ EncodedAs (.sknp x) (0xE0A1 + x.val * 0x100) ∧
    (∀ k : Fin 16, (s.readV x).toNat = k.val →
      (∃ t, exec (.skp x) s = .next t ∧
        t.pc = (if s.readKey k = true then s.pc + 2 else s.pc) ∧ Frame [.pc] s t) ∧
      (∃ t, exec (.sknp x) s = .next t ∧
        t.pc = (if s.readKey k = false then s.pc + 2 else s.pc) ∧ Frame [.pc] s t)) ∧
    (15 < (s.readV x).toNat →
      (∃ t, exec (.skp x) s = .next t ∧ Faulted (.keyRange (s.readV x)) (some (encode (.skp x))) s t) ∧
      (∃ t, exec (.sknp x) s = .next t ∧ Faulted (.keyRange (s.readV x)) (some (encode (.sknp x))) s t))

/-- R172 (decision D12): FX0A rewinds pc to itself while no key is held; once one is, it lets pc go on and, only where
FX0A_STORE_KEY is true, sets VX to the lowest held key. -/
def Obligations.WaitForKey : Prop :=
  ∀ (x : Reg) (s : State),
    EncodedAs (.waitk x) (0xF00A + x.val * 0x100) ∧
    ((∀ k, s.readKey k = false) → ∃ t, exec (.waitk x) s = .next t ∧ t.pc = s.pc - 2 ∧ Frame [.pc] s t) ∧
    (∀ k, s.readKey k = true → (∀ j, j < k → s.readKey j = false) → ∃ t, exec (.waitk x) s = .next t ∧
      (s.params.storeKey = false → Frame [] s t) ∧
      (s.params.storeKey = true → (t.readV x).toNat = k.val ∧ FrameV [x] s t ∧ Frame [.v] s t))

/-- R172 and R173 (decision D12) with the source's property S10: a CYCLE at an FX0A with no key held leaves the core
as it is, so any number of them does; at the first CYCLE with some key held it goes on to the following instruction.
The host is any that issues CYCLE next; one that issues CYCLE for ever spins the core for ever. -/
def Obligations.WaitSpinsUntilKey : Prop :=
  ∀ (s : State) (x : Reg), s.fault = none → s.pc.toNat ≤ 4094 → decodeWord (wordAt s) = .waitk x →
    s.schedule.issue.1 = .cycle →
    ((∀ k, s.readKey k = false) → step s = .next (s.setSchedule s.schedule.issue.2)) ∧
    ((∀ k, s.readKey k = false) → s.schedule = .cycles → ∀ n, Host.Core.run Sys2Proof.core n s = .next s) ∧
    ((∃ k, s.readKey k = true) → ∃ t, step s = .next t ∧ t.pc = s.pc + 2 ∧ t.fault = none)

/-- R180, R181, R182: FX07 reads DT, FX15 writes DT, FX18 writes ST; nothing else changes. -/
def Obligations.TimerTransfers : Prop :=
  ∀ (x : Reg) (s : State),
    EncodedAs (.ldVxDt x) (0xF007 + x.val * 0x100) ∧ EncodedAs (.ldDtVx x) (0xF015 + x.val * 0x100) ∧
    EncodedAs (.ldStVx x) (0xF018 + x.val * 0x100) ∧
    (∃ t, exec (.ldVxDt x) s = .next t ∧ t.readV x = s.dt ∧ FrameV [x] s t ∧ Frame [.v] s t) ∧
    (∃ t, exec (.ldDtVx x) s = .next t ∧ t.dt = s.readV x ∧ Frame [.dt] s t) ∧
    (∃ t, exec (.ldStVx x) s = .next t ∧ t.st = s.readV x ∧ Frame [.st] s t)

/-! ### The host interface -/

/-- R211: TICK lowers DT and ST by one, never below zero, and changes nothing else, faulted core or not. -/
def Obligations.TickCountsDown : Prop :=
  ∀ s, ∃ t, perform .tick s = .next t ∧ t.dt.toNat = s.dt.toNat - 1 ∧ t.st.toNat = s.st.toNat - 1 ∧
    Frame [.dt, .st] s t

/-- R213 (decision D2): KEY overwrites one flag of the latch and changes nothing else. -/
def Obligations.KeyOverwritesFlag : Prop :=
  ∀ (k : Fin 16) (held : Bool) (s : State), ∃ t, perform (.key k held) s = .next t ∧
    t.readKey k = held ∧ (∀ j, j ≠ k → t.readKey j = s.readKey j) ∧ Frame [.key] s t

/-- R214 and R215: the framebuffer port gives the 2048 pixels row-major, pixel (x, y) at y*64 + x; the sound port
gives ST, the tone on exactly when ST > 0; reading changes nothing. The fault port, READ_FAULT of R216 (decision D1),
gives the fault record and changes nothing, whether the core has faulted or not. -/
def Obligations.ReadPorts : Prop :=
  ∀ s : State, (readFb s).length = 2048 ∧
    (∀ x y, x < 64 → y < 32 → (readFb s)[y * 64 + x]? = some (s.pixel x y)) ∧
    readSound s = s.st ∧ (soundOn s = true ↔ 0 < s.st.toNat) ∧ readFault s = s.fault ∧
    perform .readFb s = .next s ∧ perform .readSound s = .next s ∧ perform .readFault s = .next s

/-- R210 (decision D2), for the model's schedule (log entry 4): every finite sequence of host operations is a run of the
machine, whatever the host issues after it: the steps of a core before whose schedule it stands end where the operations
performed one after the other end. -/
def Obligations.EveryInterleavingRuns : Prop :=
  ∀ (ops : List HostOp) (s t : State), performAll ops s = .next t →
    Host.Core.run Sys2Proof.core ops.length (s.setSchedule (s.schedule.after ops)) = .next t

/-- R253 (decision D21): a final state holds no fault, has pc <= 0xFFE and the word 0x1000 | pc at pc; any cycles,
ticks, keys and reads leave every register, memory byte, the stack, pc and the framebuffer as they are, and the state
final. -/
def Obligations.FinalStateStays : Prop :=
  (∀ s, isFinal s = true ↔ s.fault = none ∧ s.pc.toNat ≤ 0xFFE ∧ (wordAt s).toNat = 0x1000 + s.pc.toNat) ∧
  ∀ (ops : List HostOp) (s : State), isFinal s = true → (∀ p, .reset p ∉ ops) →
    ∃ t, performAll ops s = .next t ∧ isFinal t = true ∧ Frame [.dt, .st, .key] s t

/-- R210 (decision D2), for the model's schedule (log entry 4): the steps of a core perform its host's infinite
sequence, operation after operation. The sequences: any finite one before any other; any finite one over and over,
from a host that only ticks or only writes keys to one that only issues CYCLE; and the free sequence `Config.hostOp`,
of which nothing is known, so that what holds of it holds of every infinite sequence. -/
def Obligations.InfiniteSequencesRun : Prop :=
  (∀ (n : Nat) (s t : State), performAll ((List.range n).map s.schedule.nth) s = .next t →
    ∃ c, Host.Core.run Sys2Proof.core n s = .next (t.setSchedule c) ∧ ∀ k, c.nth k = s.schedule.nth (n + k)) ∧
  (∀ (c : Schedule) (ops : List HostOp) (k : Nat), (∀ h : k < ops.length, (c.after ops).nth k = ops[k]) ∧
    (c.after ops).nth (ops.length + k) = c.nth k) ∧
  (∀ first rest k, (first :: rest)[k % (rest.length + 1)]? = some (Schedule.nth ⟨[], .repeating first rest⟩ k)) ∧
  ∀ n k, Schedule.nth ⟨[], .free n⟩ k = Config.hostOp (n + k)

/-- R254, R183, R256 (decision D2): no rule of the core supplies progress: however many operations the host issues, as
long as none is a CYCLE or a RESET, nothing changes but DT, ST and Key (and the model's own schedule). -/
def Obligations.NoProgressWithoutCycles : Prop :=
  ∀ (n : Nat) (s : State), (∀ k, k < n → s.schedule.nth k ≠ .cycle ∧ ∀ p, s.schedule.nth k ≠ .reset p) →
    ∃ t, Host.Core.run Sys2Proof.core n s = .next t ∧ Frame [.dt, .st, .key, .schedule] s t
end

