-- ==== Sys2Proof/Laws/Encoding.lean ====
section
/-! SUPPORT. The fields of a word as numbers, the number of a packed word, and the fields read back from it. -/

namespace Sys2Proof

@[simp] theorem regOf_regBits (x : Reg) : regOf (regBits x) = x := rfl
@[simp] theorem regBits_regOf (b : Nibble) : regBits (regOf b) = b := rfl
@[simp] theorem toNat_regBits (x : Reg) : (regBits x).toNat = x.val := rfl
@[simp] theorem val_regOf (b : Nibble) : (regOf b).val = b.toNat := rfl

/-! ### Fields as numbers (R72) -/

theorem toNat_nibble1 (w : Word) : (nibble1 w).toNat = w.toNat / 0x1000 := by
  have := w.isLt
  simp [nibble1, Nat.shiftRight_eq_div_pow]; omega
theorem toNat_nibble2 (w : Word) : (nibble2 w).toNat = w.toNat / 0x100 % 0x10 := by
  simp [nibble2, Nat.shiftRight_eq_div_pow]
theorem toNat_nibble3 (w : Word) : (nibble3 w).toNat = w.toNat / 0x10 % 0x10 := by
  simp [nibble3, Nat.shiftRight_eq_div_pow]
theorem toNat_nibble4 (w : Word) : (nibble4 w).toNat = w.toNat % 0x10 := by simp [nibble4]
theorem toNat_lowByte (w : Word) : (lowByte w).toNat = w.toNat % 0x100 := by simp [lowByte]
theorem toNat_low12 (w : Word) : (low12 w).toNat = w.toNat % 0x1000 := by simp [low12]
theorem val_regX (w : Word) : (regX w).val = w.toNat / 0x100 % 0x10 := toNat_nibble2 w
theorem val_regY (w : Word) : (regY w).val = w.toNat / 0x10 % 0x10 := toNat_nibble3 w

/-- A word is its two bytes, high byte first (R57). -/
theorem toNat_wordOfBytes (hi lo : Byte) : (wordOfBytes hi lo).toNat = hi.toNat * 0x100 + lo.toNat := by
  have h := BitVec.toNat_append hi lo
  rw [← Nat.shiftLeft_add_eq_or_of_lt lo.isLt, Nat.shiftLeft_eq] at h
  exact h

/-! ### Packed words as numbers -/

section Packed
variable (op n : Nibble) (x y : Reg) (nn : Byte) (nnn : Addr12)

theorem toNat_packA : (packA op nnn).toNat = op.toNat * 0x1000 + nnn.toNat := by
  have h := BitVec.toNat_append op nnn
  rw [← Nat.shiftLeft_add_eq_or_of_lt nnn.isLt, Nat.shiftLeft_eq] at h
  exact h

theorem toNat_packXNN : (packXNN op x nn).toNat = op.toNat * 0x1000 + x.val * 0x100 + nn.toNat := by
  have h1 := BitVec.toNat_append op (regBits x)
  rw [← Nat.shiftLeft_add_eq_or_of_lt (regBits x).isLt, Nat.shiftLeft_eq] at h1
  have h2 := BitVec.toNat_append (op ++ regBits x) nn
  rw [← Nat.shiftLeft_add_eq_or_of_lt nn.isLt, Nat.shiftLeft_eq, h1] at h2
  refine h2.trans ?_
  simp only [toNat_regBits]; omega

theorem toNat_packXYN : (packXYN op x y n).toNat = op.toNat * 0x1000 + x.val * 0x100 + y.val * 0x10 + n.toNat := by
  have h1 := BitVec.toNat_append op (regBits x)
  rw [← Nat.shiftLeft_add_eq_or_of_lt (regBits x).isLt, Nat.shiftLeft_eq] at h1
  have h2 := BitVec.toNat_append (op ++ regBits x) (regBits y)
  rw [← Nat.shiftLeft_add_eq_or_of_lt (regBits y).isLt, Nat.shiftLeft_eq, h1] at h2
  have h3 := BitVec.toNat_append (op ++ regBits x ++ regBits y) n
  rw [← Nat.shiftLeft_add_eq_or_of_lt n.isLt, Nat.shiftLeft_eq, h2] at h3
  refine h3.trans ?_
  simp only [toNat_regBits]; omega

/-! ### The fields of a packed word -/

@[simp] theorem nibble1_packA : nibble1 (packA op nnn) = op :=
  BitVec.eq_of_toNat_eq (by rw [toNat_nibble1, toNat_packA]; have := nnn.isLt; omega)
@[simp] theorem low12_packA : low12 (packA op nnn) = nnn :=
  BitVec.eq_of_toNat_eq (by rw [toNat_low12, toNat_packA]; have := nnn.isLt; omega)
@[simp] theorem nibble1_packXNN : nibble1 (packXNN op x nn) = op :=
  BitVec.eq_of_toNat_eq (by rw [toNat_nibble1, toNat_packXNN]; have := nn.isLt; omega)
@[simp] theorem regX_packXNN : regX (packXNN op x nn) = x :=
  Fin.ext (by rw [val_regX, toNat_packXNN]; have := nn.isLt; omega)
@[simp] theorem lowByte_packXNN : lowByte (packXNN op x nn) = nn :=
  BitVec.eq_of_toNat_eq (by rw [toNat_lowByte, toNat_packXNN]; have := nn.isLt; omega)
@[simp] theorem nibble1_packXYN : nibble1 (packXYN op x y n) = op :=
  BitVec.eq_of_toNat_eq (by rw [toNat_nibble1, toNat_packXYN]; have := n.isLt; omega)
@[simp] theorem regX_packXYN : regX (packXYN op x y n) = x :=
  Fin.ext (by rw [val_regX, toNat_packXYN]; have := n.isLt; omega)
@[simp] theorem regY_packXYN : regY (packXYN op x y n) = y :=
  Fin.ext (by rw [val_regY, toNat_packXYN]; have := n.isLt; omega)
@[simp] theorem nibble4_packXYN : nibble4 (packXYN op x y n) = n :=
  BitVec.eq_of_toNat_eq (by rw [toNat_nibble4, toNat_packXYN]; have := n.isLt; omega)

end Packed

end Sys2Proof
end

