-- ==== Sys2Proof/Laws/Memory.lean ====
section
/-! SUPPORT. The laws of memory: a read after a write, and that every memory operation keeps the canonical form. -/

namespace Sys2Proof.Machine

open Sys2Proof

/-- A byte no entry lists reads as `Config.resetByte`. -/
theorem Memory.read_of_not_listed {m : Memory} {a : Nat} (h : ∀ c ∈ m, c.1 ≠ a) :
    Memory.read m a = Config.resetByte a := by
  induction m with
  | nil => rfl
  | cons c rest ih =>
    simp only [List.mem_cons, forall_eq_or_imp] at h
    simp [Memory.read, h.1, ih h.2]

/-- A read after a write to a canonical memory (R52, R53, R61). -/
theorem Memory.read_write {m : Memory} (hm : m.Pairwise (fun c d => c.1 < d.1)) (a c : Nat) (b : Byte) :
    Memory.read (Memory.write m a b) c = if c = a then b else Memory.read m c := by
  induction m with
  | nil =>
    by_cases hb : b = Config.resetByte a <;> by_cases hc : c = a <;> simp_all [Memory.write, Memory.read, eq_comm]
  | cons e rest ih =>
    obtain ⟨hlt, hrest⟩ := List.pairwise_cons.1 hm
    have hnot : ∀ x, x ≤ e.1 → Memory.read rest x = Config.resetByte x := fun x hx =>
      Memory.read_of_not_listed fun d hd => by have := hlt d hd; omega
    rcases lt_trichotomy a e.1 with h | h | h
    · -- below the first entry
      have he : e.1 ≠ a := by omega
      by_cases hc : c = a
      · subst hc
        by_cases hb : b = Config.resetByte c <;> simp [Memory.write, Memory.read, h, hb, he, hnot c h.le]
      · by_cases hb : b = Config.resetByte a <;> simp [Memory.write, Memory.read, h, hb, hc, Ne.symm hc]
    · -- at the first entry
      subst h
      have hr := hnot e.1 le_rfl
      by_cases hc : c = e.1
      · subst hc
        by_cases hb : b = Config.resetByte e.1 <;> simp [Memory.write, Memory.read, hb, hr]
      · by_cases hb : b = Config.resetByte e.1 <;> simp [Memory.write, Memory.read, hb, hc, Ne.symm hc]
    · -- after the first entry
      have h1 : ¬a < e.1 := by omega
      have h2 : e.1 ≠ a := by omega
      by_cases he : e.1 = c
      · subst he
        simp [Memory.write, Memory.read, h1, h2]
      · simp [Memory.write, Memory.read, h1, h2, he, ih hrest]

/-- Every entry of a written memory is the written byte or an old entry. -/
theorem Memory.mem_write {m : Memory} {a : Nat} {b : Byte} {c : Host.Cell} (h : c ∈ Memory.write m a b) :
    (c = (a, b) ∧ b ≠ Config.resetByte a) ∨ c ∈ m := by
  induction m with
  | nil => unfold Memory.write at h; split_ifs at h with hb <;> simp_all
  | cons e rest ih =>
    unfold Memory.write at h
    split_ifs at h with h1 hb h2 hb
    · exact .inr h
    · rcases List.mem_cons.1 h with h | h
      · exact .inl ⟨h, hb⟩
      · exact .inr h
    · exact .inr (List.mem_cons_of_mem _ h)
    · rcases List.mem_cons.1 h with h | h
      · exact .inl ⟨h, hb⟩
      · exact .inr (List.mem_cons_of_mem _ h)
    · rcases List.mem_cons.1 h with h | h
      · exact .inr (by simp [h])
      · exact (ih h).imp id (List.mem_cons_of_mem _)

/-- A write keeps the addresses strictly rising. -/
theorem Memory.write_pairwise {m : Memory} (hm : m.Pairwise (fun c d => c.1 < d.1)) (a : Nat) (b : Byte) :
    (Memory.write m a b).Pairwise (fun c d => c.1 < d.1) := by
  induction m with
  | nil => unfold Memory.write; split_ifs <;> simp
  | cons e rest ih =>
    obtain ⟨hlt, hrest⟩ := List.pairwise_cons.1 hm
    unfold Memory.write
    split_ifs with h1 hb h2 hb
    · exact hm
    · refine List.pairwise_cons.2 ⟨fun d hd => ?_, hm⟩
      rcases List.mem_cons.1 hd with rfl | hd
      · exact h1
      · have := hlt d hd; simp only; omega
    · exact hrest
    · exact List.pairwise_cons.2 ⟨fun d hd => by have := hlt d hd; simp only; omega, hrest⟩
    · refine List.pairwise_cons.2 ⟨fun d hd => ?_, ih hrest⟩
      rcases Memory.mem_write hd with ⟨rfl, -⟩ | hd
      · simp only; omega
      · exact hlt d hd

/-- A write inside the address space keeps the canonical form. -/
theorem Memory.write_wf {m : Memory} (hm : Memory.wf m) {a : Nat} (ha : a < Config.memSize) (b : Byte) :
    Memory.wf (Memory.write m a b) := by
  refine ⟨Memory.write_pairwise hm.1 a b, fun c hc => ?_⟩
  rcases Memory.mem_write hc with ⟨rfl, hb⟩ | hc
  · exact ⟨ha, hb⟩
  · exact hm.2 c hc

/-- Writing a range inside the address space keeps the canonical form. -/
theorem Memory.writeRange_wf {bytes : List Byte} : ∀ {m : Memory} {base : Nat}, Memory.wf m →
    base + bytes.length ≤ Config.memSize → Memory.wf (Memory.writeRange m base bytes) := by
  induction bytes with
  | nil => intro m base hm _; exact hm
  | cons b rest ih =>
    intro m base hm h
    simp only [List.length_cons] at h
    exact ih (Memory.write_wf hm (by omega) b) (by omega)

/-- A read after a range was written to a canonical memory. -/
theorem Memory.read_writeRange {bytes : List Byte} : ∀ {m : Memory} {base : Nat},
    m.Pairwise (fun c d => c.1 < d.1) → ∀ a, Memory.read (Memory.writeRange m base bytes) a =
      if h : base ≤ a ∧ a < base + bytes.length then bytes[a - base]'(by omega) else Memory.read m a := by
  induction bytes with
  | nil => intro m base _ a; simp [Memory.writeRange]
  | cons b rest ih =>
    intro m base hm a
    rw [Memory.writeRange, ih (Memory.write_pairwise hm _ _), Memory.read_write hm]
    simp only [List.length_cons]
    by_cases h1 : a = base
    · subst h1; simp
    · by_cases h2 : base + 1 ≤ a ∧ a < base + 1 + rest.length
      · have h3 : base ≤ a ∧ a < base + (rest.length + 1) := by omega
        have h4 : a - base = (a - (base + 1)) + 1 := by omega
        simp [h2, h3, h4]
      · have h3 : ¬(base ≤ a ∧ a < base + (rest.length + 1)) := by omega
        rw [dif_neg h2, dif_neg h3, if_neg h1]

@[simp] theorem Memory.length_readRange (m : Memory) (base n : Nat) : (Memory.readRange m base n).length = n := by
  induction n generalizing base with
  | zero => rfl
  | succ n ih => simp [Memory.readRange, ih]

/-- The k-th byte of a range is the byte at base + k. -/
theorem Memory.getElem_readRange (m : Memory) (base n k : Nat) (h : k < (Memory.readRange m base n).length) :
    (Memory.readRange m base n)[k] = Memory.read m (base + k) := by
  induction n generalizing base k with
  | zero => simp at h
  | succ n ih =>
    cases k with
    | zero => simp [Memory.readRange]
    | succ k =>
      simp only [Memory.readRange, List.getElem_cons_succ]
      rw [ih]; congr 1; omega

end Sys2Proof.Machine
end

