-- ==== Sys2Proof/Laws/State.lean ====
section
/-! SUPPORT. Each field of the state after each named update, so that no later proof unfolds one. -/

namespace Sys2Proof.Machine

variable (s : State)

@[simp] theorem State.setV_v (r : Reg) (b : Byte) : (s.setV r b).v = s.v.set r.val b r.isLt := rfl
@[simp] theorem State.setV_i (r : Reg) (b : Byte) : (s.setV r b).i = s.i := rfl
@[simp] theorem State.setV_pc (r : Reg) (b : Byte) : (s.setV r b).pc = s.pc := rfl
@[simp] theorem State.setV_stack (r : Reg) (b : Byte) : (s.setV r b).stack = s.stack := rfl
@[simp] theorem State.setV_dt (r : Reg) (b : Byte) : (s.setV r b).dt = s.dt := rfl
@[simp] theorem State.setV_st (r : Reg) (b : Byte) : (s.setV r b).st = s.st := rfl
@[simp] theorem State.setV_mem (r : Reg) (b : Byte) : (s.setV r b).mem = s.mem := rfl
@[simp] theorem State.setV_fb (r : Reg) (b : Byte) : (s.setV r b).fb = s.fb := rfl
@[simp] theorem State.setV_key (r : Reg) (b : Byte) : (s.setV r b).key = s.key := rfl
@[simp] theorem State.setV_fault (r : Reg) (b : Byte) : (s.setV r b).fault = s.fault := rfl
@[simp] theorem State.setV_draws (r : Reg) (b : Byte) : (s.setV r b).draws = s.draws := rfl
@[simp] theorem State.setV_schedule (r : Reg) (b : Byte) : (s.setV r b).schedule = s.schedule := rfl
@[simp] theorem State.setV_params (r : Reg) (b : Byte) : (s.setV r b).params = s.params := rfl

@[simp] theorem State.setI_v (a : Word) : (s.setI a).v = s.v := rfl
@[simp] theorem State.setI_i (a : Word) : (s.setI a).i = a := rfl
@[simp] theorem State.setI_pc (a : Word) : (s.setI a).pc = s.pc := rfl
@[simp] theorem State.setI_stack (a : Word) : (s.setI a).stack = s.stack := rfl
@[simp] theorem State.setI_dt (a : Word) : (s.setI a).dt = s.dt := rfl
@[simp] theorem State.setI_st (a : Word) : (s.setI a).st = s.st := rfl
@[simp] theorem State.setI_mem (a : Word) : (s.setI a).mem = s.mem := rfl
@[simp] theorem State.setI_fb (a : Word) : (s.setI a).fb = s.fb := rfl
@[simp] theorem State.setI_key (a : Word) : (s.setI a).key = s.key := rfl
@[simp] theorem State.setI_fault (a : Word) : (s.setI a).fault = s.fault := rfl
@[simp] theorem State.setI_draws (a : Word) : (s.setI a).draws = s.draws := rfl
@[simp] theorem State.setI_schedule (a : Word) : (s.setI a).schedule = s.schedule := rfl
@[simp] theorem State.setI_params (a : Word) : (s.setI a).params = s.params := rfl

@[simp] theorem State.setPc_v (a : Word) : (s.setPc a).v = s.v := rfl
@[simp] theorem State.setPc_i (a : Word) : (s.setPc a).i = s.i := rfl
@[simp] theorem State.setPc_pc (a : Word) : (s.setPc a).pc = a := rfl
@[simp] theorem State.setPc_stack (a : Word) : (s.setPc a).stack = s.stack := rfl
@[simp] theorem State.setPc_dt (a : Word) : (s.setPc a).dt = s.dt := rfl
@[simp] theorem State.setPc_st (a : Word) : (s.setPc a).st = s.st := rfl
@[simp] theorem State.setPc_mem (a : Word) : (s.setPc a).mem = s.mem := rfl
@[simp] theorem State.setPc_fb (a : Word) : (s.setPc a).fb = s.fb := rfl
@[simp] theorem State.setPc_key (a : Word) : (s.setPc a).key = s.key := rfl
@[simp] theorem State.setPc_fault (a : Word) : (s.setPc a).fault = s.fault := rfl
@[simp] theorem State.setPc_draws (a : Word) : (s.setPc a).draws = s.draws := rfl
@[simp] theorem State.setPc_schedule (a : Word) : (s.setPc a).schedule = s.schedule := rfl
@[simp] theorem State.setPc_params (a : Word) : (s.setPc a).params = s.params := rfl

@[simp] theorem State.setStack_v (k : List Word) : (s.setStack k).v = s.v := rfl
@[simp] theorem State.setStack_i (k : List Word) : (s.setStack k).i = s.i := rfl
@[simp] theorem State.setStack_pc (k : List Word) : (s.setStack k).pc = s.pc := rfl
@[simp] theorem State.setStack_stack (k : List Word) : (s.setStack k).stack = k := rfl
@[simp] theorem State.setStack_dt (k : List Word) : (s.setStack k).dt = s.dt := rfl
@[simp] theorem State.setStack_st (k : List Word) : (s.setStack k).st = s.st := rfl
@[simp] theorem State.setStack_mem (k : List Word) : (s.setStack k).mem = s.mem := rfl
@[simp] theorem State.setStack_fb (k : List Word) : (s.setStack k).fb = s.fb := rfl
@[simp] theorem State.setStack_key (k : List Word) : (s.setStack k).key = s.key := rfl
@[simp] theorem State.setStack_fault (k : List Word) : (s.setStack k).fault = s.fault := rfl
@[simp] theorem State.setStack_draws (k : List Word) : (s.setStack k).draws = s.draws := rfl
@[simp] theorem State.setStack_schedule (k : List Word) : (s.setStack k).schedule = s.schedule := rfl
@[simp] theorem State.setStack_params (k : List Word) : (s.setStack k).params = s.params := rfl

@[simp] theorem State.setDt_v (b : Byte) : (s.setDt b).v = s.v := rfl
@[simp] theorem State.setDt_i (b : Byte) : (s.setDt b).i = s.i := rfl
@[simp] theorem State.setDt_pc (b : Byte) : (s.setDt b).pc = s.pc := rfl
@[simp] theorem State.setDt_stack (b : Byte) : (s.setDt b).stack = s.stack := rfl
@[simp] theorem State.setDt_dt (b : Byte) : (s.setDt b).dt = b := rfl
@[simp] theorem State.setDt_st (b : Byte) : (s.setDt b).st = s.st := rfl
@[simp] theorem State.setDt_mem (b : Byte) : (s.setDt b).mem = s.mem := rfl
@[simp] theorem State.setDt_fb (b : Byte) : (s.setDt b).fb = s.fb := rfl
@[simp] theorem State.setDt_key (b : Byte) : (s.setDt b).key = s.key := rfl
@[simp] theorem State.setDt_fault (b : Byte) : (s.setDt b).fault = s.fault := rfl
@[simp] theorem State.setDt_draws (b : Byte) : (s.setDt b).draws = s.draws := rfl
@[simp] theorem State.setDt_schedule (b : Byte) : (s.setDt b).schedule = s.schedule := rfl
@[simp] theorem State.setDt_params (b : Byte) : (s.setDt b).params = s.params := rfl

@[simp] theorem State.setSt_v (b : Byte) : (s.setSt b).v = s.v := rfl
@[simp] theorem State.setSt_i (b : Byte) : (s.setSt b).i = s.i := rfl
@[simp] theorem State.setSt_pc (b : Byte) : (s.setSt b).pc = s.pc := rfl
@[simp] theorem State.setSt_stack (b : Byte) : (s.setSt b).stack = s.stack := rfl
@[simp] theorem State.setSt_dt (b : Byte) : (s.setSt b).dt = s.dt := rfl
@[simp] theorem State.setSt_st (b : Byte) : (s.setSt b).st = b := rfl
@[simp] theorem State.setSt_mem (b : Byte) : (s.setSt b).mem = s.mem := rfl
@[simp] theorem State.setSt_fb (b : Byte) : (s.setSt b).fb = s.fb := rfl
@[simp] theorem State.setSt_key (b : Byte) : (s.setSt b).key = s.key := rfl
@[simp] theorem State.setSt_fault (b : Byte) : (s.setSt b).fault = s.fault := rfl
@[simp] theorem State.setSt_draws (b : Byte) : (s.setSt b).draws = s.draws := rfl
@[simp] theorem State.setSt_schedule (b : Byte) : (s.setSt b).schedule = s.schedule := rfl
@[simp] theorem State.setSt_params (b : Byte) : (s.setSt b).params = s.params := rfl

@[simp] theorem State.setMem_v (m : Memory) : (s.setMem m).v = s.v := rfl
@[simp] theorem State.setMem_i (m : Memory) : (s.setMem m).i = s.i := rfl
@[simp] theorem State.setMem_pc (m : Memory) : (s.setMem m).pc = s.pc := rfl
@[simp] theorem State.setMem_stack (m : Memory) : (s.setMem m).stack = s.stack := rfl
@[simp] theorem State.setMem_dt (m : Memory) : (s.setMem m).dt = s.dt := rfl
@[simp] theorem State.setMem_st (m : Memory) : (s.setMem m).st = s.st := rfl
@[simp] theorem State.setMem_mem (m : Memory) : (s.setMem m).mem = m := rfl
@[simp] theorem State.setMem_fb (m : Memory) : (s.setMem m).fb = s.fb := rfl
@[simp] theorem State.setMem_key (m : Memory) : (s.setMem m).key = s.key := rfl
@[simp] theorem State.setMem_fault (m : Memory) : (s.setMem m).fault = s.fault := rfl
@[simp] theorem State.setMem_draws (m : Memory) : (s.setMem m).draws = s.draws := rfl
@[simp] theorem State.setMem_schedule (m : Memory) : (s.setMem m).schedule = s.schedule := rfl
@[simp] theorem State.setMem_params (m : Memory) : (s.setMem m).params = s.params := rfl

@[simp] theorem State.setFb_v (f : Config.Framebuffer) : (s.setFb f).v = s.v := rfl
@[simp] theorem State.setFb_i (f : Config.Framebuffer) : (s.setFb f).i = s.i := rfl
@[simp] theorem State.setFb_pc (f : Config.Framebuffer) : (s.setFb f).pc = s.pc := rfl
@[simp] theorem State.setFb_stack (f : Config.Framebuffer) : (s.setFb f).stack = s.stack := rfl
@[simp] theorem State.setFb_dt (f : Config.Framebuffer) : (s.setFb f).dt = s.dt := rfl
@[simp] theorem State.setFb_st (f : Config.Framebuffer) : (s.setFb f).st = s.st := rfl
@[simp] theorem State.setFb_mem (f : Config.Framebuffer) : (s.setFb f).mem = s.mem := rfl
@[simp] theorem State.setFb_fb (f : Config.Framebuffer) : (s.setFb f).fb = f := rfl
@[simp] theorem State.setFb_key (f : Config.Framebuffer) : (s.setFb f).key = s.key := rfl
@[simp] theorem State.setFb_fault (f : Config.Framebuffer) : (s.setFb f).fault = s.fault := rfl
@[simp] theorem State.setFb_draws (f : Config.Framebuffer) : (s.setFb f).draws = s.draws := rfl
@[simp] theorem State.setFb_schedule (f : Config.Framebuffer) : (s.setFb f).schedule = s.schedule := rfl
@[simp] theorem State.setFb_params (f : Config.Framebuffer) : (s.setFb f).params = s.params := rfl

@[simp] theorem State.setKey_v (k : Fin 16) (b : Bool) : (s.setKey k b).v = s.v := rfl
@[simp] theorem State.setKey_i (k : Fin 16) (b : Bool) : (s.setKey k b).i = s.i := rfl
@[simp] theorem State.setKey_pc (k : Fin 16) (b : Bool) : (s.setKey k b).pc = s.pc := rfl
@[simp] theorem State.setKey_stack (k : Fin 16) (b : Bool) : (s.setKey k b).stack = s.stack := rfl
@[simp] theorem State.setKey_dt (k : Fin 16) (b : Bool) : (s.setKey k b).dt = s.dt := rfl
@[simp] theorem State.setKey_st (k : Fin 16) (b : Bool) : (s.setKey k b).st = s.st := rfl
@[simp] theorem State.setKey_mem (k : Fin 16) (b : Bool) : (s.setKey k b).mem = s.mem := rfl
@[simp] theorem State.setKey_fb (k : Fin 16) (b : Bool) : (s.setKey k b).fb = s.fb := rfl
@[simp] theorem State.setKey_key (k : Fin 16) (b : Bool) : (s.setKey k b).key = s.key.set k.val b k.isLt := rfl
@[simp] theorem State.setKey_fault (k : Fin 16) (b : Bool) : (s.setKey k b).fault = s.fault := rfl
@[simp] theorem State.setKey_draws (k : Fin 16) (b : Bool) : (s.setKey k b).draws = s.draws := rfl
@[simp] theorem State.setKey_schedule (k : Fin 16) (b : Bool) : (s.setKey k b).schedule = s.schedule := rfl
@[simp] theorem State.setKey_params (k : Fin 16) (b : Bool) : (s.setKey k b).params = s.params := rfl

@[simp] theorem State.setFault_v (f : Option FaultRecord) : (s.setFault f).v = s.v := rfl
@[simp] theorem State.setFault_i (f : Option FaultRecord) : (s.setFault f).i = s.i := rfl
@[simp] theorem State.setFault_pc (f : Option FaultRecord) : (s.setFault f).pc = s.pc := rfl
@[simp] theorem State.setFault_stack (f : Option FaultRecord) : (s.setFault f).stack = s.stack := rfl
@[simp] theorem State.setFault_dt (f : Option FaultRecord) : (s.setFault f).dt = s.dt := rfl
@[simp] theorem State.setFault_st (f : Option FaultRecord) : (s.setFault f).st = s.st := rfl
@[simp] theorem State.setFault_mem (f : Option FaultRecord) : (s.setFault f).mem = s.mem := rfl
@[simp] theorem State.setFault_fb (f : Option FaultRecord) : (s.setFault f).fb = s.fb := rfl
@[simp] theorem State.setFault_key (f : Option FaultRecord) : (s.setFault f).key = s.key := rfl
@[simp] theorem State.setFault_fault (f : Option FaultRecord) : (s.setFault f).fault = f := rfl
@[simp] theorem State.setFault_draws (f : Option FaultRecord) : (s.setFault f).draws = s.draws := rfl
@[simp] theorem State.setFault_schedule (f : Option FaultRecord) : (s.setFault f).schedule = s.schedule := rfl
@[simp] theorem State.setFault_params (f : Option FaultRecord) : (s.setFault f).params = s.params := rfl

@[simp] theorem State.setDraws_v (n : Nat) : (s.setDraws n).v = s.v := rfl
@[simp] theorem State.setDraws_i (n : Nat) : (s.setDraws n).i = s.i := rfl
@[simp] theorem State.setDraws_pc (n : Nat) : (s.setDraws n).pc = s.pc := rfl
@[simp] theorem State.setDraws_stack (n : Nat) : (s.setDraws n).stack = s.stack := rfl
@[simp] theorem State.setDraws_dt (n : Nat) : (s.setDraws n).dt = s.dt := rfl
@[simp] theorem State.setDraws_st (n : Nat) : (s.setDraws n).st = s.st := rfl
@[simp] theorem State.setDraws_mem (n : Nat) : (s.setDraws n).mem = s.mem := rfl
@[simp] theorem State.setDraws_fb (n : Nat) : (s.setDraws n).fb = s.fb := rfl
@[simp] theorem State.setDraws_key (n : Nat) : (s.setDraws n).key = s.key := rfl
@[simp] theorem State.setDraws_fault (n : Nat) : (s.setDraws n).fault = s.fault := rfl
@[simp] theorem State.setDraws_draws (n : Nat) : (s.setDraws n).draws = n := rfl
@[simp] theorem State.setDraws_schedule (n : Nat) : (s.setDraws n).schedule = s.schedule := rfl
@[simp] theorem State.setDraws_params (n : Nat) : (s.setDraws n).params = s.params := rfl

@[simp] theorem State.setSchedule_v (ops : Schedule) : (s.setSchedule ops).v = s.v := rfl
@[simp] theorem State.setSchedule_i (ops : Schedule) : (s.setSchedule ops).i = s.i := rfl
@[simp] theorem State.setSchedule_pc (ops : Schedule) : (s.setSchedule ops).pc = s.pc := rfl
@[simp] theorem State.setSchedule_stack (ops : Schedule) : (s.setSchedule ops).stack = s.stack := rfl
@[simp] theorem State.setSchedule_dt (ops : Schedule) : (s.setSchedule ops).dt = s.dt := rfl
@[simp] theorem State.setSchedule_st (ops : Schedule) : (s.setSchedule ops).st = s.st := rfl
@[simp] theorem State.setSchedule_mem (ops : Schedule) : (s.setSchedule ops).mem = s.mem := rfl
@[simp] theorem State.setSchedule_fb (ops : Schedule) : (s.setSchedule ops).fb = s.fb := rfl
@[simp] theorem State.setSchedule_key (ops : Schedule) : (s.setSchedule ops).key = s.key := rfl
@[simp] theorem State.setSchedule_fault (ops : Schedule) : (s.setSchedule ops).fault = s.fault := rfl
@[simp] theorem State.setSchedule_draws (ops : Schedule) : (s.setSchedule ops).draws = s.draws := rfl
@[simp] theorem State.setSchedule_schedule (ops : Schedule) : (s.setSchedule ops).schedule = ops := rfl
@[simp] theorem State.setSchedule_params (ops : Schedule) : (s.setSchedule ops).params = s.params := rfl

@[simp] theorem State.advancePc_v : (s.advancePc).v = s.v := rfl
@[simp] theorem State.advancePc_i : (s.advancePc).i = s.i := rfl
@[simp] theorem State.advancePc_pc : (s.advancePc).pc = s.pc + 2 := rfl
@[simp] theorem State.advancePc_stack : (s.advancePc).stack = s.stack := rfl
@[simp] theorem State.advancePc_dt : (s.advancePc).dt = s.dt := rfl
@[simp] theorem State.advancePc_st : (s.advancePc).st = s.st := rfl
@[simp] theorem State.advancePc_mem : (s.advancePc).mem = s.mem := rfl
@[simp] theorem State.advancePc_fb : (s.advancePc).fb = s.fb := rfl
@[simp] theorem State.advancePc_key : (s.advancePc).key = s.key := rfl
@[simp] theorem State.advancePc_fault : (s.advancePc).fault = s.fault := rfl
@[simp] theorem State.advancePc_draws : (s.advancePc).draws = s.draws := rfl
@[simp] theorem State.advancePc_schedule : (s.advancePc).schedule = s.schedule := rfl
@[simp] theorem State.advancePc_params : (s.advancePc).params = s.params := rfl

@[simp] theorem State.rewindPc_v : (s.rewindPc).v = s.v := rfl
@[simp] theorem State.rewindPc_i : (s.rewindPc).i = s.i := rfl
@[simp] theorem State.rewindPc_pc : (s.rewindPc).pc = s.pc - 2 := rfl
@[simp] theorem State.rewindPc_stack : (s.rewindPc).stack = s.stack := rfl
@[simp] theorem State.rewindPc_dt : (s.rewindPc).dt = s.dt := rfl
@[simp] theorem State.rewindPc_st : (s.rewindPc).st = s.st := rfl
@[simp] theorem State.rewindPc_mem : (s.rewindPc).mem = s.mem := rfl
@[simp] theorem State.rewindPc_fb : (s.rewindPc).fb = s.fb := rfl
@[simp] theorem State.rewindPc_key : (s.rewindPc).key = s.key := rfl
@[simp] theorem State.rewindPc_fault : (s.rewindPc).fault = s.fault := rfl
@[simp] theorem State.rewindPc_draws : (s.rewindPc).draws = s.draws := rfl
@[simp] theorem State.rewindPc_schedule : (s.rewindPc).schedule = s.schedule := rfl
@[simp] theorem State.rewindPc_params : (s.rewindPc).params = s.params := rfl

/-! ### The reads of the accessors -/

@[simp] theorem State.setV_readByte (r : Reg) (b : Byte) (c : Nat) : (s.setV r b).readByte c = s.readByte c := rfl
@[simp] theorem State.setV_pixel (r : Reg) (b : Byte) (x y : Nat) : (s.setV r b).pixel x y = s.pixel x y := rfl
@[simp] theorem State.setV_readKey (r : Reg) (b : Byte) (q : Fin 16) : (s.setV r b).readKey q = s.readKey q := rfl
@[simp] theorem State.setI_readV (a : Word) (q : Reg) : (s.setI a).readV q = s.readV q := rfl
@[simp] theorem State.setI_readByte (a : Word) (c : Nat) : (s.setI a).readByte c = s.readByte c := rfl
@[simp] theorem State.setI_pixel (a : Word) (x y : Nat) : (s.setI a).pixel x y = s.pixel x y := rfl
@[simp] theorem State.setI_readKey (a : Word) (q : Fin 16) : (s.setI a).readKey q = s.readKey q := rfl
@[simp] theorem State.setPc_readV (a : Word) (q : Reg) : (s.setPc a).readV q = s.readV q := rfl
@[simp] theorem State.setPc_readByte (a : Word) (c : Nat) : (s.setPc a).readByte c = s.readByte c := rfl
@[simp] theorem State.setPc_pixel (a : Word) (x y : Nat) : (s.setPc a).pixel x y = s.pixel x y := rfl
@[simp] theorem State.setPc_readKey (a : Word) (q : Fin 16) : (s.setPc a).readKey q = s.readKey q := rfl
@[simp] theorem State.setStack_readV (k : List Word) (q : Reg) : (s.setStack k).readV q = s.readV q := rfl
@[simp] theorem State.setStack_readByte (k : List Word) (c : Nat) : (s.setStack k).readByte c = s.readByte c := rfl
@[simp] theorem State.setStack_pixel (k : List Word) (x y : Nat) : (s.setStack k).pixel x y = s.pixel x y := rfl
@[simp] theorem State.setStack_readKey (k : List Word) (q : Fin 16) : (s.setStack k).readKey q = s.readKey q := rfl
@[simp] theorem State.setDt_readV (b : Byte) (q : Reg) : (s.setDt b).readV q = s.readV q := rfl
@[simp] theorem State.setDt_readByte (b : Byte) (c : Nat) : (s.setDt b).readByte c = s.readByte c := rfl
@[simp] theorem State.setDt_pixel (b : Byte) (x y : Nat) : (s.setDt b).pixel x y = s.pixel x y := rfl
@[simp] theorem State.setDt_readKey (b : Byte) (q : Fin 16) : (s.setDt b).readKey q = s.readKey q := rfl
@[simp] theorem State.setSt_readV (b : Byte) (q : Reg) : (s.setSt b).readV q = s.readV q := rfl
@[simp] theorem State.setSt_readByte (b : Byte) (c : Nat) : (s.setSt b).readByte c = s.readByte c := rfl
@[simp] theorem State.setSt_pixel (b : Byte) (x y : Nat) : (s.setSt b).pixel x y = s.pixel x y := rfl
@[simp] theorem State.setSt_readKey (b : Byte) (q : Fin 16) : (s.setSt b).readKey q = s.readKey q := rfl
@[simp] theorem State.setMem_readV (m : Memory) (q : Reg) : (s.setMem m).readV q = s.readV q := rfl
@[simp] theorem State.setMem_pixel (m : Memory) (x y : Nat) : (s.setMem m).pixel x y = s.pixel x y := rfl
@[simp] theorem State.setMem_readKey (m : Memory) (q : Fin 16) : (s.setMem m).readKey q = s.readKey q := rfl
@[simp] theorem State.setFb_readV (f : Config.Framebuffer) (q : Reg) : (s.setFb f).readV q = s.readV q := rfl
@[simp] theorem State.setFb_readByte (f : Config.Framebuffer) (c : Nat) : (s.setFb f).readByte c = s.readByte c := rfl
@[simp] theorem State.setFb_readKey (f : Config.Framebuffer) (q : Fin 16) : (s.setFb f).readKey q = s.readKey q := rfl
@[simp] theorem State.setKey_readV (k : Fin 16) (b : Bool) (q : Reg) : (s.setKey k b).readV q = s.readV q := rfl
@[simp] theorem State.setKey_readByte (k : Fin 16) (b : Bool) (c : Nat) : (s.setKey k b).readByte c = s.readByte c := rfl
@[simp] theorem State.setKey_pixel (k : Fin 16) (b : Bool) (x y : Nat) : (s.setKey k b).pixel x y = s.pixel x y := rfl
@[simp] theorem State.setFault_readV (f : Option FaultRecord) (q : Reg) : (s.setFault f).readV q = s.readV q := rfl
@[simp] theorem State.setFault_readByte (f : Option FaultRecord) (c : Nat) : (s.setFault f).readByte c = s.readByte c := rfl
@[simp] theorem State.setFault_pixel (f : Option FaultRecord) (x y : Nat) : (s.setFault f).pixel x y = s.pixel x y := rfl
@[simp] theorem State.setFault_readKey (f : Option FaultRecord) (q : Fin 16) : (s.setFault f).readKey q = s.readKey q := rfl
@[simp] theorem State.setDraws_readV (n : Nat) (q : Reg) : (s.setDraws n).readV q = s.readV q := rfl
@[simp] theorem State.setDraws_readByte (n : Nat) (c : Nat) : (s.setDraws n).readByte c = s.readByte c := rfl
@[simp] theorem State.setDraws_pixel (n : Nat) (x y : Nat) : (s.setDraws n).pixel x y = s.pixel x y := rfl
@[simp] theorem State.setDraws_readKey (n : Nat) (q : Fin 16) : (s.setDraws n).readKey q = s.readKey q := rfl
@[simp] theorem State.setSchedule_readV (ops : Schedule) (q : Reg) : (s.setSchedule ops).readV q = s.readV q := rfl
@[simp] theorem State.setSchedule_readByte (ops : Schedule) (c : Nat) : (s.setSchedule ops).readByte c = s.readByte c := rfl
@[simp] theorem State.setSchedule_pixel (ops : Schedule) (x y : Nat) : (s.setSchedule ops).pixel x y = s.pixel x y := rfl
@[simp] theorem State.setSchedule_readKey (ops : Schedule) (q : Fin 16) : (s.setSchedule ops).readKey q = s.readKey q := rfl
@[simp] theorem State.advancePc_readV (q : Reg) : (s.advancePc).readV q = s.readV q := rfl
@[simp] theorem State.advancePc_readByte (c : Nat) : (s.advancePc).readByte c = s.readByte c := rfl
@[simp] theorem State.advancePc_pixel (x y : Nat) : (s.advancePc).pixel x y = s.pixel x y := rfl
@[simp] theorem State.advancePc_readKey (q : Fin 16) : (s.advancePc).readKey q = s.readKey q := rfl
@[simp] theorem State.rewindPc_readV (q : Reg) : (s.rewindPc).readV q = s.readV q := rfl
@[simp] theorem State.rewindPc_readByte (c : Nat) : (s.rewindPc).readByte c = s.readByte c := rfl
@[simp] theorem State.rewindPc_pixel (x y : Nat) : (s.rewindPc).pixel x y = s.pixel x y := rfl
@[simp] theorem State.rewindPc_readKey (q : Fin 16) : (s.rewindPc).readKey q = s.readKey q := rfl

@[simp] theorem State.setMem_readByte (m : Memory) (c : Nat) : (s.setMem m).readByte c = Memory.read m c := rfl
@[simp] theorem State.setFb_pixel (f : Config.Framebuffer) (x y : Nat) : (s.setFb f).pixel x y = getPixel f x y := rfl

/-- A register read after a register write (R20). -/
theorem State.setV_readV (r q : Reg) (b : Byte) : (s.setV r b).readV q = if q = r then b else s.readV q := by
  simp only [State.readV, State.setV, Vector.getElem_set, Fin.ext_iff, eq_comm]

@[simp] theorem State.setV_readV_self (r : Reg) (b : Byte) : (s.setV r b).readV r = b := by
  simp [State.setV_readV]

theorem State.setV_readV_ne {r q : Reg} (b : Byte) (h : q ≠ r) : (s.setV r b).readV q = s.readV q := by
  simp [State.setV_readV, h]

/-- A key read after a KEY operation (R213). -/
theorem State.setKey_readKey (k q : Fin 16) (b : Bool) : (s.setKey k b).readKey q = if q = k then b else s.readKey q := by
  simp only [State.readKey, State.setKey, Vector.getElem_set, Fin.ext_iff, eq_comm]

/-- Moving pc forward and back again. -/
@[simp] theorem State.rewindPc_advancePc : s.advancePc.rewindPc = s := by
  simp [State.advancePc, State.rewindPc, State.setPc]

/-- Two states whose fields are equal are equal, the register file and the latch compared entry by entry. -/
theorem State.ext_reads {s t : State} (hv : ∀ r, t.readV r = s.readV r) (hi : t.i = s.i) (hpc : t.pc = s.pc)
    (hk : t.stack = s.stack) (hdt : t.dt = s.dt) (hst : t.st = s.st) (hm : t.mem = s.mem) (hf : t.fb = s.fb)
    (hkey : ∀ k, t.readKey k = s.readKey k) (hfault : t.fault = s.fault) (hd : t.draws = s.draws)
    (hs : t.schedule = s.schedule) (hp : t.params = s.params) : t = s := by
  have h1 : t.v = s.v := Vector.ext fun n hn => hv ⟨n, hn⟩
  have h2 : t.key = s.key := Vector.ext fun n hn => hkey ⟨n, hn⟩
  cases s; cases t; simp_all

end Sys2Proof.Machine
end

