-- ==== Sys2Proof/Laws/Ops.lean ====
section
/-! SUPPORT. One lemma per shared operation that says everything it can do, for later proofs to cite. -/

namespace Sys2Proof.Machine

/-! ### The bounds check and the memory primitives -/

theorem boundsFault_eq_none {kind : AccessKind} {base n : Nat} :
    boundsFault kind base n = none ↔ n = 0 ∨ base + n ≤ 4096 := by
  unfold boundsFault Config.memSize
  split_ifs with h <;> simp [h]

theorem boundsFault_eq_some {kind : AccessKind} {base n : Nat} {f : Fault} :
    boundsFault kind base n = some f ↔ (n ≠ 0 ∧ 4096 < base + n) ∧ f = .memOob (max base 4096) kind := by
  unfold boundsFault Config.memSize
  split_ifs with h
  · have : ¬(n ≠ 0 ∧ 4096 < base + n) := by omega
    simp [this]
  · have : n ≠ 0 ∧ 4096 < base + n := by omega
    simp [this, eq_comm]

/-- A read either faults at the lowest out-of-range address or returns the bytes as they stand (R51, R52, R60). -/
theorem memRead_cases (s : State) (kind : AccessKind) (base n : Nat) :
    ((n ≠ 0 ∧ 4096 < base + n) ∧ memRead s kind base n = .error (.memOob (max base 4096) kind)) ∨
    ((n = 0 ∨ base + n ≤ 4096) ∧ memRead s kind base n = .ok (Memory.readRange s.mem base n)) := by
  unfold memRead
  cases h : boundsFault kind base n with
  | none => exact .inr ⟨boundsFault_eq_none.1 h, rfl⟩
  | some f => obtain ⟨h1, rfl⟩ := boundsFault_eq_some.1 h; exact .inl ⟨h1, rfl⟩

/-- A write either faults at the lowest out-of-range address or writes every byte (R51, R53, R60). -/
theorem memWrite_cases (s : State) (base : Nat) (bytes : List Byte) :
    ((bytes.length ≠ 0 ∧ 4096 < base + bytes.length) ∧
      memWrite s base bytes = .error (.memOob (max base 4096) .write)) ∨
    ((bytes.length = 0 ∨ base + bytes.length ≤ 4096) ∧
      memWrite s base bytes = .ok (s.setMem (Memory.writeRange s.mem base bytes))) := by
  unfold memWrite
  cases h : boundsFault .write base bytes.length with
  | none => exact .inr ⟨boundsFault_eq_none.1 h, rfl⟩
  | some f => obtain ⟨h1, rfl⟩ := boundsFault_eq_some.1 h; exact .inl ⟨h1, rfl⟩

/-- A fetch either faults at the lowest out-of-range address or reads the word at pc (R58). -/
theorem fetch_cases (s : State) :
    (4094 < s.pc.toNat ∧ fetch s = .error (.memOob (max s.pc.toNat 4096) .fetch)) ∨
    (s.pc.toNat ≤ 4094 ∧
      fetch s = .ok (wordOfBytes (s.readByte s.pc.toNat) (s.readByte (s.pc.toNat + 1)))) := by
  unfold fetch
  cases h : boundsFault .fetch s.pc.toNat 2 with
  | none => have := boundsFault_eq_none.1 h; exact .inr ⟨by omega, rfl⟩
  | some f => obtain ⟨h1, rfl⟩ := boundsFault_eq_some.1 h; exact .inl ⟨by omega, rfl⟩

/-! ### The stack -/

/-- A push either overflows a bounded capacity or appends (R27). -/
theorem push_cases (s : State) (a : Word) :
    (s.params.stackCapacity = some s.stack.length ∧ push s a = .error (.stackOverflow s.stack.length)) ∨
    (s.params.stackCapacity ≠ some s.stack.length ∧ push s a = .ok (s.setStack (s.stack ++ [a]))) := by
  unfold push
  cases h : s.params.stackCapacity with
  | none => exact .inr ⟨by simp, rfl⟩
  | some c =>
    by_cases hc : s.stack.length = c
    · exact .inl ⟨by rw [hc], by simp [hc]⟩
    · exact .inr ⟨by simpa using Ne.symm hc, by simp [hc]⟩

/-- A pop either underflows or splits off the last address (R27). -/
theorem pop_cases (s : State) :
    (s.stack = [] ∧ pop s = .error .stackUnderflow) ∨
    (∃ k a, s.stack = k ++ [a] ∧ pop s = .ok (a, s.setStack k)) := by
  unfold pop
  rcases List.eq_nil_or_concat s.stack with h | ⟨k, a, h⟩
  · exact .inl ⟨h, by simp [h]⟩
  · exact .inr ⟨k, a, by simpa using h, by simp [h]⟩

/-! ### The end of an instruction -/

@[simp] theorem finish_ok (i : Instr) (s t : State) : finish i s (.ok t) = .next t := rfl
@[simp] theorem finish_error (i : Instr) (s : State) (f : Fault) :
    finish i s (.error f) = .next (takeFault f (s.pc - 2) (some (encode i)) s) := rfl

/-- Taking a fault leaves what R201 says. -/
theorem takeFault_faulted (f : Fault) (word : Option Word) (s : State) :
    Faulted f word s (takeFault f (s.pc - 2) word s) := by
  refine ⟨rfl, rfl, fun g hg => ?_⟩
  cases g <;> simp_all [SameField, takeFault]

/-! ### The framebuffer -/

/-- A pixel read after a pixel write (R29). -/
theorem getPixel_setPixel (f : Config.Framebuffer) (x y px py : Nat) (b : Bool) :
    getPixel (setPixel f px py b) x y =
      if x = px ∧ y = py ∧ px < 64 ∧ py < 32 then b else getPixel f x y := by
  unfold setPixel
  by_cases hp : px < 64 ∧ py < 32
  · by_cases hq : x < 64 ∧ y < 32
    · by_cases hy : y = py
      · subst hy
        by_cases hx : x = px
        · subst hx; simp [getPixel, hp]
        · simp [getPixel, hp, hq, hx, Ne.symm hx]
      · simp [getPixel, hp, hq, hy, Ne.symm hy]
    · have : ¬(x = px ∧ y = py ∧ px < 64 ∧ py < 32) := by rintro ⟨rfl, rfl, h⟩; exact hq h
      simp [getPixel, hq, this]
  · simp [hp]

@[simp] theorem getPixel_blank (x y : Nat) : getPixel Config.blankFb x y = false := by
  by_cases h : x < 64 ∧ y < 32 <;> simp [getPixel, Config.blankFb, h]

/-! ### A block of registers -/

/-- The registers a block load writes: register k + j receives the j-th byte (R155). -/
theorem getElem_loadBlock (bytes : List Byte) : ∀ (v : Vector Byte 16) (k n : Nat) (hn : n < 16),
    (loadBlock v k bytes)[n] =
      if h : k ≤ n ∧ n < k + bytes.length then bytes[n - k]'(by omega) else v[n] := by
  induction bytes with
  | nil => intro v k n hn; simp [loadBlock]
  | cons b rest ih =>
    intro v k n hn
    by_cases hk : k < 16
    · simp only [loadBlock, dif_pos hk, ih]
      by_cases h1 : n = k
      · subst h1; simp
      · by_cases h2 : k + 1 ≤ n ∧ n < k + 1 + rest.length
        · have h3 : k ≤ n ∧ n < k + (rest.length + 1) := by omega
          have h4 : n - k = (n - (k + 1)) + 1 := by omega
          simp [h2, h3, h4]
        · have h3 : ¬(k ≤ n ∧ n < k + (b :: rest).length) := by simp only [List.length_cons]; omega
          rw [dif_neg h2]
          rw [dif_neg h3, Vector.getElem_set_ne _ _ (by omega)]
    · have h3 : ¬(k ≤ n ∧ n < k + (b :: rest).length) := by omega
      simp only [loadBlock, dif_neg hk, dif_neg h3]

@[simp] theorem length_blockOf (s : State) (x : Reg) : (blockOf s x).length = x.val + 1 := by
  simp [blockOf]

theorem getElem_blockOf (s : State) (x : Reg) (k : Nat) (h : k < (blockOf s x).length) :
    (blockOf s x)[k] = s.readV ⟨k, by simp at h; omega⟩ := by
  simp [blockOf, State.readV]

@[simp] theorem length_bcdDigits (d : Byte) : (bcdDigits d).length = 3 := rfl

end Sys2Proof.Machine
end

