-- ==== Sys2Proof/Laws/Blitter.lean ====
section
/-! SUPPORT. What the sprite blitter does, once: it flips a set of pixels, each at most once (spec/40_display.md R103 to
R105). -/

namespace Sys2Proof.Machine

/-- `b'` is `b` with exactly the pixels of `P` flipped, and its hit is set exactly when one of them was lit, or before. -/
structure Flips (P : Nat → Nat → Prop) (b b' : Blit) : Prop where
  /-- A pixel of P is flipped. -/
  flipped : ∀ x y, P x y → getPixel b'.fb x y = !getPixel b.fb x y
  /-- Any other pixel is not. -/
  kept : ∀ x y, ¬P x y → getPixel b'.fb x y = getPixel b.fb x y
  /-- The collision (R103). -/
  hit : b'.hit = true ↔ b.hit = true ∨ ∃ x y, P x y ∧ getPixel b.fb x y = true

theorem Flips.none {P : Nat → Nat → Prop} (h : ∀ x y, ¬P x y) (b : Blit) : Flips P b b :=
  ⟨fun x y hp => absurd hp (h x y), fun _ _ _ => rfl, by simp [h]⟩

/-- Flipping one set and then a disjoint one flips their union (R105). -/
theorem Flips.trans {P Q R : Nat → Nat → Prop} {b b' b'' : Blit} (h1 : Flips P b b') (h2 : Flips Q b' b'')
    (hd : ∀ x y, P x y → ¬Q x y) (hR : ∀ x y, R x y ↔ P x y ∨ Q x y) : Flips R b b'' := by
  refine ⟨fun x y h => ?_, fun x y h => ?_, ?_⟩
  · rcases (hR x y).1 h with hp | hq
    · rw [h2.kept x y (hd x y hp), h1.flipped x y hp]
    · rw [h2.flipped x y hq, h1.kept x y fun hp => hd x y hp hq]
  · have hn := fun h' => h ((hR x y).2 h')
    rw [h2.kept x y fun hq => hn (.inr hq), h1.kept x y fun hp => hn (.inl hp)]
  · rw [h2.hit, h1.hit]
    constructor
    · rintro ((h | ⟨x, y, hp, hl⟩) | ⟨x, y, hq, hl⟩)
      · exact .inl h
      · exact .inr ⟨x, y, (hR x y).2 (.inl hp), hl⟩
      · exact .inr ⟨x, y, (hR x y).2 (.inr hq), by rwa [h1.kept x y fun hp => hd x y hp hq] at hl⟩
    · rintro (h | ⟨x, y, hr, hl⟩)
      · exact .inl (.inl h)
      · rcases (hR x y).1 hr with hp | hq
        · exact .inl (.inr ⟨x, y, hp, hl⟩)
        · exact .inr ⟨x, y, hq, by rwa [h1.kept x y fun hp => hd x y hp hq]⟩

/-- One pixel (R101, R104). -/
theorem blitPixel_flips (px py : Nat) (lit : Bool) (b : Blit) :
    Flips (fun x y => x = px ∧ y = py ∧ px < 64 ∧ py < 32 ∧ lit = true) b (blitPixel px py lit b) := by
  unfold blitPixel
  split_ifs with h
  · refine ⟨?_, fun x y hn => ?_, ?_⟩
    · rintro x y ⟨rfl, rfl, hx, hy, -⟩
      simp [getPixel_setPixel, hx, hy]
    · have : ¬(x = px ∧ y = py ∧ px < 64 ∧ py < 32) := fun ⟨h1, h2, h3, h4⟩ => hn ⟨h1, h2, h3, h4, h.1⟩
      simp [getPixel_setPixel, this]
    · simp only [Bool.or_eq_true]
      constructor
      · rintro (hb | hb)
        · exact .inl hb
        · exact .inr ⟨px, py, ⟨rfl, rfl, h.2.1, h.2.2, h.1⟩, hb⟩
      · rintro (hb | ⟨x, y, ⟨rfl, rfl, -⟩, hb⟩)
        · exact .inl hb
        · exact .inr hb
  · exact Flips.none (fun x y hp => h ⟨hp.2.2.2.2, hp.2.2.1, hp.2.2.2.1⟩) b

theorem blitPixels_flips (ox py : Nat) (byte : Byte) (l : List Nat) (hl : l.Nodup) (b : Blit) :
    Flips (fun x y => ∃ k ∈ l, x = ox + k ∧ y = py ∧ x < 64 ∧ y < 32 ∧ spriteBit byte k = true) b
      (l.foldl (fun acc k => blitPixel (ox + k) py (spriteBit byte k) acc) b) := by
  induction l generalizing b with
  | nil => exact Flips.none (by simp) b
  | cons k rest ih =>
    obtain ⟨hk, hrest⟩ := List.nodup_cons.1 hl
    refine Flips.trans (blitPixel_flips (ox + k) py (spriteBit byte k) b) (ih hrest _) ?_ ?_
    · rintro x y ⟨rfl, rfl, -⟩ ⟨j, hj, hx, -⟩
      exact hk ((by omega : j = k) ▸ hj)
    · intro x y
      simp only [List.mem_cons, exists_eq_or_imp]
      refine or_congr ?_ Iff.rfl
      constructor
      · rintro ⟨rfl, rfl, h⟩; exact ⟨rfl, rfl, h⟩
      · rintro ⟨rfl, rfl, h⟩; exact ⟨rfl, rfl, h⟩

/-- One row (R101, R102). -/
theorem blitRow_flips (ox py : Nat) (byte : Byte) (b : Blit) :
    Flips (fun x y => ∃ k, k < 8 ∧ x = ox + k ∧ y = py ∧ x < 64 ∧ y < 32 ∧ spriteBit byte k = true) b
      (blitRow ox py byte b) := by
  have h := blitPixels_flips ox py byte (List.range 8) List.nodup_range b
  simp only [List.mem_range] at h
  exact h

/-- All rows: the pixels of a sprite at an origin (R101, R102, R104). -/
theorem blitRows_flips (ox : Nat) (sprite : List Byte) : ∀ (py : Nat) (b : Blit),
    Flips (fun x y => ∃ r k, ∃ h : r < sprite.length, k < 8 ∧ x = ox + k ∧ y = py + r ∧ x < 64 ∧ y < 32 ∧
      spriteBit sprite[r] k = true) b (blitRows ox py sprite b) := by
  induction sprite with
  | nil => intro py b; exact Flips.none (by simp) b
  | cons byte rest ih =>
    intro py b
    refine Flips.trans (blitRow_flips ox py byte b) (ih (py + 1) _) ?_ ?_
    · rintro x y ⟨k, -, -, rfl, -⟩ ⟨r, j, -, -, -, hy, -⟩
      omega
    · intro x y
      constructor
      · rintro ⟨r, k, hr, hk, hx, hy, h⟩
        cases r with
        | zero => exact .inl ⟨k, hk, hx, by omega, h⟩
        | succ r => exact .inr ⟨r, k, by simpa using hr, hk, hx, by omega, h⟩
      · rintro (⟨k, hk, hx, hy, h⟩ | ⟨r, k, hr, hk, hx, hy, h⟩)
        · exact ⟨0, k, by simp, hk, hx, by omega, h⟩
        · exact ⟨r + 1, k, by simpa using hr, hk, hx, by omega, h⟩

end Sys2Proof.Machine
end

