-- ==== Sys2Proof/Laws/Exec.lean ====
section
/-! SUPPORT. What each instruction that can fault, wait or skip does: every case with its condition and its next state.
The other meanings are one update each and need no lemma. -/

namespace Sys2Proof.Machine

variable (s : State)

/-- The state a faulting instruction leaves (R201). -/
abbrev faultState (i : Instr) (f : Fault) : State := takeFault f (s.pc - 2) (some (encode i)) s

theorem execRet_cases :
    (s.stack = [] ∧ execRet s = .next (faultState s .ret .stackUnderflow)) ∨
    (∃ k a, s.stack = k ++ [a] ∧ execRet s = .next ((s.setStack k).setPc a)) := by
  rcases pop_cases s with ⟨h, hp⟩ | ⟨k, a, h, hp⟩
  · exact .inl ⟨h, by simp only [execRet, hp]; rfl⟩
  · exact .inr ⟨k, a, h, by simp only [execRet, hp]; rfl⟩

theorem execCall_cases (nnn : Addr12) :
    (s.params.stackCapacity = some s.stack.length ∧
      execCall nnn s = .next (faultState s (.call nnn) (.stackOverflow s.stack.length))) ∨
    (s.params.stackCapacity ≠ some s.stack.length ∧
      execCall nnn s = .next ((s.setStack (s.stack ++ [s.pc])).setPc (addrOperand nnn))) := by
  rcases push_cases s s.pc with ⟨h, hp⟩ | ⟨h, hp⟩
  · exact .inl ⟨h, by simp only [execCall, hp]; rfl⟩
  · exact .inr ⟨h, by simp only [execCall, hp]; rfl⟩

theorem execDrw_cases (x y : Reg) (n : Nibble) :
    ((n.toNat ≠ 0 ∧ 4096 < s.i.toNat + n.toNat) ∧
      execDrw x y n s = .next (faultState s (.drw x y n) (.memOob (max s.i.toNat 4096) .read))) ∨
    ((n.toNat = 0 ∨ s.i.toNat + n.toNat ≤ 4096) ∧
      execDrw x y n s = .next (drawSprite s x y (Memory.readRange s.mem s.i.toNat n.toNat))) := by
  rcases memRead_cases s .read (effectiveAddr s 0) n.toNat with ⟨h, hp⟩ | ⟨h, hp⟩
  · exact .inl ⟨h, by simp only [execDrw, hp]; rfl⟩
  · exact .inr ⟨h, by simp only [execDrw, hp]; rfl⟩

/-- What drawing a sprite does to the framebuffer and to VF (R101 to R104). -/
theorem drawSprite_flips (x y : Reg) (sprite : List Byte) :
    ∃ b, drawSprite s x y sprite = (s.setFb b.fb).setV VF (flagByte b.hit) ∧
      Flips (fun px py => ∃ r k, ∃ h : r < sprite.length, k < 8 ∧ px = (s.readV x).toNat % 64 + k ∧
        py = (s.readV y).toNat % 32 + r ∧ px < 64 ∧ py < 32 ∧ spriteBit sprite[r] k = true) ⟨s.fb, false⟩ b :=
  ⟨_, rfl, blitRows_flips _ _ _ _⟩

theorem execAddI_cases (x : Reg) :
    (0xFFFF < s.i.toNat + (s.readV x).toNat ∧
      execAddI x s = .next (faultState s (.addI x) (.indexOverflow (s.i.toNat + (s.readV x).toNat)))) ∨
    (s.i.toNat + (s.readV x).toNat ≤ 0xFFFF ∧
      execAddI x s = .next (s.setI (BitVec.ofNat 16 (s.i.toNat + (s.readV x).toNat)))) := by
  unfold execAddI indexSum
  split_ifs with h
  · exact .inl ⟨h, rfl⟩
  · exact .inr ⟨by omega, rfl⟩

theorem execLdB_cases (x : Reg) :
    (4096 ≤ s.i.toNat + 2 ∧ execLdB x s = .next (faultState s (.ldB x) (.memOob (max s.i.toNat 4096) .write))) ∨
    (s.i.toNat + 2 < 4096 ∧
      execLdB x s = .next (s.setMem (Memory.writeRange s.mem s.i.toNat (bcdDigits (s.readV x))))) := by
  rcases memWrite_cases s (effectiveAddr s 0) (bcdDigits (s.readV x)) with ⟨h, hp⟩ | ⟨h, hp⟩ <;>
    simp only [length_bcdDigits, effectiveAddr] at h
  · exact .inl ⟨by omega, by simp only [execLdB, hp]; rfl⟩
  · exact .inr ⟨by omega, by simp only [execLdB, hp]; rfl⟩

theorem execStoreRegs_cases (x : Reg) :
    (4096 ≤ s.i.toNat + x.val ∧
      execStoreRegs x s = .next (faultState s (.storeRegs x) (.memOob (max s.i.toNat 4096) .write))) ∨
    (s.i.toNat + x.val < 4096 ∧
      execStoreRegs x s = .next (s.setMem (Memory.writeRange s.mem s.i.toNat (blockOf s x)))) := by
  rcases memWrite_cases s (effectiveAddr s 0) (blockOf s x) with ⟨h, hp⟩ | ⟨h, hp⟩ <;>
    simp only [length_blockOf, effectiveAddr] at h
  · exact .inl ⟨by omega, by simp only [execStoreRegs, hp]; rfl⟩
  · exact .inr ⟨by omega, by simp only [execStoreRegs, hp]; rfl⟩

theorem execLoadRegs_cases (x : Reg) :
    (4096 ≤ s.i.toNat + x.val ∧
      execLoadRegs x s = .next (faultState s (.loadRegs x) (.memOob (max s.i.toNat 4096) .read))) ∨
    (s.i.toNat + x.val < 4096 ∧
      execLoadRegs x s =
        .next { s with v := loadBlock s.v 0 (Memory.readRange s.mem s.i.toNat (x.val + 1)) }) := by
  rcases memRead_cases s .read (effectiveAddr s 0) (x.val + 1) with ⟨h, hp⟩ | ⟨h, hp⟩ <;>
    simp only [effectiveAddr] at h
  · exact .inl ⟨by omega, by simp only [execLoadRegs, hp]; rfl⟩
  · exact .inr ⟨by omega, by simp only [execLoadRegs, hp]; rfl⟩

theorem keyOperand_cases (x : Reg) :
    (15 < (s.readV x).toNat ∧ keyOperand s x = .error (.keyRange (s.readV x))) ∨
    (∃ k : Fin 16, (s.readV x).toNat = k.val ∧ keyOperand s x = .ok k) := by
  unfold keyOperand
  split_ifs with h
  · exact .inr ⟨⟨_, h⟩, rfl, rfl⟩
  · exact .inl ⟨by omega, rfl⟩

theorem execSkp_cases (x : Reg) :
    (15 < (s.readV x).toNat ∧ execSkp x s = .next (faultState s (.skp x) (.keyRange (s.readV x)))) ∨
    (∃ k : Fin 16, (s.readV x).toNat = k.val ∧ execSkp x s = .next (skipIf (s.readKey k) s)) := by
  rcases keyOperand_cases s x with ⟨h, hp⟩ | ⟨k, h, hp⟩
  · exact .inl ⟨h, by simp only [execSkp, hp]; rfl⟩
  · exact .inr ⟨k, h, by simp only [execSkp, hp]; rfl⟩

theorem execSknp_cases (x : Reg) :
    (15 < (s.readV x).toNat ∧ execSknp x s = .next (faultState s (.sknp x) (.keyRange (s.readV x)))) ∨
    (∃ k : Fin 16, (s.readV x).toNat = k.val ∧ execSknp x s = .next (skipIf (!s.readKey k) s)) := by
  rcases keyOperand_cases s x with ⟨h, hp⟩ | ⟨k, h, hp⟩
  · exact .inl ⟨h, by simp only [execSknp, hp]; rfl⟩
  · exact .inr ⟨k, h, by simp only [execSknp, hp]; rfl⟩

theorem lowestHeldKey_eq_none : s.lowestHeldKey = none ↔ ∀ k, s.readKey k = false := by
  simp only [State.lowestHeldKey, List.findIdx?_eq_none_iff]
  constructor
  · intro h k
    simpa [State.readKey] using h (s.key[k.val]) (by simp)
  · intro h b hb
    obtain ⟨n, hn, rfl⟩ := List.getElem_of_mem hb
    simpa [State.readKey] using h ⟨n, by simpa using hn⟩

theorem lowestHeldKey_eq_some {n : Nat} :
    s.lowestHeldKey = some n ↔
      ∃ h : n < 16, s.readKey ⟨n, h⟩ = true ∧ ∀ j : Fin 16, j.val < n → s.readKey j = false := by
  simp only [State.lowestHeldKey, List.findIdx?_eq_some_iff_getElem]
  constructor
  · rintro ⟨h, hk, hj⟩
    refine ⟨by simpa using h, by simpa [State.readKey] using hk, fun j hjn => ?_⟩
    simpa [State.readKey] using hj j.val hjn
  · rintro ⟨h, hk, hj⟩
    refine ⟨by simpa using h, by simpa [State.readKey] using hk, fun j hjn => ?_⟩
    simpa [State.readKey] using hj ⟨j, by omega⟩ hjn

theorem execWaitk_cases (x : Reg) :
    ((∀ k, s.readKey k = false) ∧ execWaitk x s = .next s.rewindPc) ∨
    (∃ k : Fin 16, s.readKey k = true ∧ (∀ j, j < k → s.readKey j = false) ∧
      execWaitk x s = .next (if s.params.storeKey then s.setV x (BitVec.ofNat 8 k.val) else s)) := by
  cases h : s.lowestHeldKey with
  | none => exact .inl ⟨(lowestHeldKey_eq_none s).1 h, by simp only [execWaitk, h]⟩
  | some n =>
    obtain ⟨hn, hk, hj⟩ := (lowestHeldKey_eq_some s).1 h
    exact .inr ⟨⟨n, hn⟩, hk, hj, by simp only [execWaitk, h]⟩

/-- A skip leaves all but pc (R120). -/
theorem skipIf_cases (c : Bool) : (c = true ∧ skipIf c s = s.advancePc) ∨ (c = false ∧ skipIf c s = s) := by
  cases c
  · exact .inr ⟨rfl, rfl⟩
  · exact .inl ⟨rfl, rfl⟩

end Sys2Proof.Machine
end

