-- ==== Sys2Proof/Laws/PerInstr.lean ====
section
/-! SUPPORT. Facts about every instruction as syntax, one lemma per constructor. Family FirstDigit: the first hex digit of
an instruction's word is the digit its pattern begins with (R75, R76). -/

namespace Sys2Proof.Laws.FirstDigit

/-- The first hex digit of an instruction's pattern (R76); an unrecognized word's own first digit. -/
def digit : Instr → Nibble
  | .cls => 0x0#4
  | .ret => 0x0#4
  | .jp _ => 0x1#4
  | .call _ => 0x2#4
  | .seByte _ _ => 0x3#4
  | .sneByte _ _ => 0x4#4
  | .seReg _ _ => 0x5#4
  | .ldByte _ _ => 0x6#4
  | .addByte _ _ => 0x7#4
  | .ldReg _ _ => 0x8#4
  | .orReg _ _ => 0x8#4
  | .andReg _ _ => 0x8#4
  | .xorReg _ _ => 0x8#4
  | .addReg _ _ => 0x8#4
  | .subReg _ _ => 0x8#4
  | .shr _ _ => 0x8#4
  | .subny _ _ => 0x8#4
  | .shl _ _ => 0x8#4
  | .sneReg _ _ => 0x9#4
  | .ldI _ => 0xA#4
  | .jpV0 _ => 0xB#4
  | .rnd4 _ _ => 0xC#4
  | .drw _ _ _ => 0xD#4
  | .skp _ => 0xE#4
  | .sknp _ => 0xE#4
  | .ldVxDt _ => 0xF#4
  | .waitk _ => 0xF#4
  | .ldDtVx _ => 0xF#4
  | .ldStVx _ => 0xF#4
  | .addI _ => 0xF#4
  | .ldF _ => 0xF#4
  | .ldB _ => 0xF#4
  | .storeRegs _ => 0xF#4
  | .loadRegs _ => 0xF#4
  | .unrecognized w => nibble1 w

/-- The encoded word begins with the pattern's digit. -/
def Statement (i : Instr) : Prop := nibble1 (encode i) = digit i

theorem cls : Statement .cls := rfl
theorem ret : Statement .ret := rfl
theorem jp (nnn : Addr12) : Statement (.jp nnn) := nibble1_packA _ _
theorem call (nnn : Addr12) : Statement (.call nnn) := nibble1_packA _ _
theorem seByte (x : Reg) (nn : Byte) : Statement (.seByte x nn) := nibble1_packXNN _ _ _
theorem sneByte (x : Reg) (nn : Byte) : Statement (.sneByte x nn) := nibble1_packXNN _ _ _
theorem seReg (x y : Reg) : Statement (.seReg x y) := nibble1_packXYN _ _ _ _
theorem ldByte (x : Reg) (nn : Byte) : Statement (.ldByte x nn) := nibble1_packXNN _ _ _
theorem addByte (x : Reg) (nn : Byte) : Statement (.addByte x nn) := nibble1_packXNN _ _ _
theorem ldReg (x y : Reg) : Statement (.ldReg x y) := nibble1_packXYN _ _ _ _
theorem orReg (x y : Reg) : Statement (.orReg x y) := nibble1_packXYN _ _ _ _
theorem andReg (x y : Reg) : Statement (.andReg x y) := nibble1_packXYN _ _ _ _
theorem xorReg (x y : Reg) : Statement (.xorReg x y) := nibble1_packXYN _ _ _ _
theorem addReg (x y : Reg) : Statement (.addReg x y) := nibble1_packXYN _ _ _ _
theorem subReg (x y : Reg) : Statement (.subReg x y) := nibble1_packXYN _ _ _ _
theorem shr (x y : Reg) : Statement (.shr x y) := nibble1_packXYN _ _ _ _
theorem subny (x y : Reg) : Statement (.subny x y) := nibble1_packXYN _ _ _ _
theorem shl (x y : Reg) : Statement (.shl x y) := nibble1_packXYN _ _ _ _
theorem sneReg (x y : Reg) : Statement (.sneReg x y) := nibble1_packXYN _ _ _ _
theorem ldI (nnn : Addr12) : Statement (.ldI nnn) := nibble1_packA _ _
theorem jpV0 (nnn : Addr12) : Statement (.jpV0 nnn) := nibble1_packA _ _
theorem rnd4 (x : Reg) (nn : Byte) : Statement (.rnd4 x nn) := nibble1_packXNN _ _ _
theorem drw (x y : Reg) (n : Nibble) : Statement (.drw x y n) := nibble1_packXYN _ _ _ _
theorem skp (x : Reg) : Statement (.skp x) := nibble1_packXNN _ _ _
theorem sknp (x : Reg) : Statement (.sknp x) := nibble1_packXNN _ _ _
theorem ldVxDt (x : Reg) : Statement (.ldVxDt x) := nibble1_packXNN _ _ _
theorem waitk (x : Reg) : Statement (.waitk x) := nibble1_packXNN _ _ _
theorem ldDtVx (x : Reg) : Statement (.ldDtVx x) := nibble1_packXNN _ _ _
theorem ldStVx (x : Reg) : Statement (.ldStVx x) := nibble1_packXNN _ _ _
theorem addI (x : Reg) : Statement (.addI x) := nibble1_packXNN _ _ _
theorem ldF (x : Reg) : Statement (.ldF x) := nibble1_packXNN _ _ _
theorem ldB (x : Reg) : Statement (.ldB x) := nibble1_packXNN _ _ _
theorem storeRegs (x : Reg) : Statement (.storeRegs x) := nibble1_packXNN _ _ _
theorem loadRegs (x : Reg) : Statement (.loadRegs x) := nibble1_packXNN _ _ _
theorem unrecognized (w : Word) : Statement (.unrecognized w) := rfl

end Sys2Proof.Laws.FirstDigit
end

