-- ==== Sys2Proof/Laws/Reset.lean ====
section
/-! SUPPORT. Memory after reset, after a launch and after a word is placed is canonical (spec/70_reset_and_hazards.md
R240). -/

namespace Sys2Proof.Machine

theorem reset_mem_wf : Memory.wf State.reset.mem := by decide

@[simp] theorem length_fontBytes (p : Config.Params) : (Config.fontBytes p).length = 80 := by
  simp [Config.fontBytes, Config.glyph0]

/-- What RESET leaves in memory is canonical when INIT_MEM is and the program fits. -/
theorem launchMemory_wf {p : Config.Params} {program : List Byte} (hm : Memory.wf p.initMem)
    (hl : program.length ≤ Config.maxProgram) : Memory.wf (launchMemory p program) := by
  have h1 : Config.maxProgram = 3584 := rfl
  refine Memory.writeRange_wf (Memory.writeRange_wf hm ?_) ?_
  · simp [Config.fontBase, Config.memSize]
  · simp [Config.programBase, Config.memSize]; omega

/-- Placing a word keeps memory canonical. -/
theorem placeFetchWord_wf {s : State} (hm : Memory.wf s.mem) (nbits w : Nat) :
    Memory.wf (placeFetchWord s nbits w).mem := by
  refine Memory.writeRange_wf hm ?_
  have hl : (tableBytes nbits w).length = 2 := rfl
  unfold fetchAddress
  split_ifs with h
  · rw [hl]; exact h
  · rw [hl]; decide

end Sys2Proof.Machine
end

