-- ==== Sys2Proof/Laws/Schedule.lean ====
section
/-! SUPPORT. The host's schedule: which operation comes when, and that only the step reads it: no operation's effect
depends on what comes after it (spec/60_exceptions.md R210). -/

namespace Sys2Proof.Machine

/-! ### What is issued -/

@[simp] theorem issue_cycles : Schedule.cycles.issue = (.cycle, .cycles) := rfl
@[simp] theorem issue_after_cons (c : Schedule) (op : HostOp) (ops : List HostOp) :
    (c.after (op :: ops)).issue = (op, c.after ops) := rfl
@[simp] theorem after_nil (c : Schedule) : c.after [] = c := rfl

/-- The operation issued next is the first of the sequence. -/
theorem nth_zero (c : Schedule) : c.nth 0 = c.issue.1 := by
  rcases c with ⟨_ | ⟨op, rest⟩, f | n⟩ <;> simp [Schedule.nth, Schedule.issue, HostTail.nth]

/-- What is issued from then on is the rest of the sequence. -/
theorem nth_succ (c : Schedule) (n : Nat) : c.nth (n + 1) = c.issue.2.nth n := by
  rcases c with ⟨_ | ⟨op, rest⟩, ⟨f, r⟩ | m⟩
  · by_cases h : n < r.length
    · have h1 : (n + 1) % (r.length + 1) = n + 1 := Nat.mod_eq_of_lt (by omega)
      simp [Schedule.nth, Schedule.issue, HostTail.nth, h, h1]
    · have h1 : (n - r.length) % (r.length + 1) = (n + 1) % (r.length + 1) := by
        rw [show n + 1 = n - r.length + (r.length + 1) by omega, Nat.add_mod_right]
      simp [Schedule.nth, Schedule.issue, HostTail.nth, h, h1]
  · simp only [Schedule.nth, Schedule.issue, HostTail.nth, List.length_nil, Nat.not_lt_zero, dite_false]
    congr 1; omega
  all_goals
    simp only [Schedule.nth, Schedule.issue, List.length_cons, Nat.add_lt_add_iff_right, List.getElem_cons_succ,
      Nat.add_sub_add_right]
    rfl

/-- The n-th operation of a schedule with operations before it. -/
theorem nth_after_lt (c : Schedule) (ops : List HostOp) {k : Nat} (h : k < ops.length) : (c.after ops).nth k = ops[k] := by
  have h' : k < (ops ++ c.ops).length := by simp; omega
  exact (dif_pos h').trans (List.getElem_append_left h)

/-! ### Nothing but the step reads the schedule -/

/-- A change of the next state of an outcome. -/
def mapNext (g : State → State) : Result → Result
  | .next t => .next (g t)
  | .fault f => .fault f
  | .refused r => .refused r

theorem skipIf_setSchedule (b : Bool) (s : State) (l : Schedule) :
    skipIf b (s.setSchedule l) = (skipIf b s).setSchedule l := by cases b <;> rfl

/-- The meaning of an instruction does not read the host's schedule. -/
theorem exec_setSchedule (i : Instr) (s : State) (l : Schedule) :
    exec i (s.setSchedule l) = mapNext (·.setSchedule l) (exec i s) := by
  cases i <;> simp only [exec]
  case ret =>
    rcases execRet_cases s with ⟨h, e⟩ | ⟨k, a, h, e⟩ <;> rw [e] <;>
      rcases execRet_cases (s.setSchedule l) with ⟨h', e'⟩ | ⟨k', a', h', e'⟩ <;> rw [e'] <;>
        simp only [State.setSchedule_stack] at h'
    · rfl
    · simp_all
    · simp_all
    · obtain ⟨rfl, h2⟩ := List.append_inj' (h'.symm.trans h) rfl
      obtain rfl : a' = a := by simpa using h2
      rfl
  case call n =>
    rcases execCall_cases s n with ⟨h, e⟩ | ⟨h, e⟩ <;> rw [e] <;>
      rcases execCall_cases (s.setSchedule l) n with ⟨h', e'⟩ | ⟨h', e'⟩ <;> rw [e'] <;>
        simp only [State.setSchedule_stack, State.setSchedule_params] at h' <;>
          first | rfl | exact absurd h h' | exact absurd h' h
  case drw x y n =>
    rcases execDrw_cases s x y n with ⟨h, e⟩ | ⟨h, e⟩ <;> rw [e] <;>
      rcases execDrw_cases (s.setSchedule l) x y n with ⟨h', e'⟩ | ⟨h', e'⟩ <;> rw [e'] <;>
        simp only [State.setSchedule_i] at h' <;> first | rfl | omega
  case skp x =>
    rcases execSkp_cases s x with ⟨h, e⟩ | ⟨k, h, e⟩ <;> rw [e] <;>
      rcases execSkp_cases (s.setSchedule l) x with ⟨h', e'⟩ | ⟨k', h', e'⟩ <;> rw [e'] <;>
        simp only [State.setSchedule_readV] at h'
    · rfl
    · omega
    · omega
    · obtain rfl : k = k' := Fin.ext (h.symm.trans h')
      simp only [State.setSchedule_readKey, skipIf_setSchedule]; rfl
  case sknp x =>
    rcases execSknp_cases s x with ⟨h, e⟩ | ⟨k, h, e⟩ <;> rw [e] <;>
      rcases execSknp_cases (s.setSchedule l) x with ⟨h', e'⟩ | ⟨k', h', e'⟩ <;> rw [e'] <;>
        simp only [State.setSchedule_readV] at h'
    · rfl
    · omega
    · omega
    · obtain rfl : k = k' := Fin.ext (h.symm.trans h')
      simp only [State.setSchedule_readKey, skipIf_setSchedule]; rfl
  case addI x =>
    rcases execAddI_cases s x with ⟨h, e⟩ | ⟨h, e⟩ <;> rw [e] <;>
      rcases execAddI_cases (s.setSchedule l) x with ⟨h', e'⟩ | ⟨h', e'⟩ <;> rw [e'] <;>
        simp only [State.setSchedule_i, State.setSchedule_readV] at h' <;> first | rfl | omega
  case ldB x =>
    rcases execLdB_cases s x with ⟨h, e⟩ | ⟨h, e⟩ <;> rw [e] <;>
      rcases execLdB_cases (s.setSchedule l) x with ⟨h', e'⟩ | ⟨h', e'⟩ <;> rw [e'] <;>
        simp only [State.setSchedule_i] at h' <;> first | rfl | omega
  case storeRegs x =>
    rcases execStoreRegs_cases s x with ⟨h, e⟩ | ⟨h, e⟩ <;> rw [e] <;>
      rcases execStoreRegs_cases (s.setSchedule l) x with ⟨h', e'⟩ | ⟨h', e'⟩ <;> rw [e'] <;>
        simp only [State.setSchedule_i] at h' <;> first | rfl | omega
  case loadRegs x =>
    rcases execLoadRegs_cases s x with ⟨h, e⟩ | ⟨h, e⟩ <;> rw [e] <;>
      rcases execLoadRegs_cases (s.setSchedule l) x with ⟨h', e'⟩ | ⟨h', e'⟩ <;> rw [e'] <;>
        simp only [State.setSchedule_i] at h' <;> first | rfl | omega
  case waitk x =>
    have e1 : (s.setSchedule l).lowestHeldKey = s.lowestHeldKey := rfl
    have e2 : (s.setSchedule l).params = s.params := rfl
    unfold execWaitk
    rw [e1]
    cases s.lowestHeldKey with
    | none => rfl
    | some k => simp only [e2, mapNext]; split_ifs <;> rfl
  all_goals first
    | rfl
    | simp only [execSeByte, execSneByte, execSeReg, execSneReg, skipIf_setSchedule, mapNext, State.setSchedule_readV]

theorem cycle_setSchedule (s : State) (l : Schedule) :
    cycle (s.setSchedule l) = mapNext (·.setSchedule l) (cycle s) := by
  unfold cycle
  have e1 : (s.setSchedule l).fault = s.fault := rfl
  have e2 : fetch (s.setSchedule l) = fetch s := rfl
  rw [e1, e2]
  cases s.fault with
  | some _ => rfl
  | none =>
    simp only
    cases fetch s with
    | error _ => rfl
    | ok w => exact exec_setSchedule _ s.advancePc l

theorem perform_setSchedule (op : HostOp) (s : State) (l : Schedule) :
    perform op (s.setSchedule l) = mapNext (·.setSchedule l) (perform op s) := by
  cases op with
  | cycle => exact cycle_setSchedule s l
  | reset p =>
    simp only [perform, resetCore]
    have e : (s.setSchedule l).params = s.params := rfl
    rw [e]; cases launch s.params p <;> rfl
  | _ => rfl

/-- Every operation that completes leaves the host's schedule as it is. -/
theorem perform_schedule {op : HostOp} {s t : State} (h : perform op s = .next t) : t.schedule = s.schedule := by
  have h1 := perform_setSchedule op s s.schedule
  rw [show s.setSchedule s.schedule = s from rfl, h] at h1
  simp only [mapNext, Host.Outcome.next.injEq] at h1
  rw [h1]; rfl

/-- A step is the next operation performed, and leaves the rest of the host's sequence. -/
theorem step_eq (s : State) :
    step s = mapNext (·.setSchedule s.schedule.issue.2) (perform s.schedule.issue.1 s) :=
  perform_setSchedule _ _ _

end Sys2Proof.Machine
end

