-- ==== Sys2Proof/Tests/Slice0.lean ====
section
/-! SUPPORT. The model's own tests. Expected words are written out from the encodings of spec/opcode_table.json, expected
results are taken from spec/95_test_vectors.md (its vector named at each test) or from a rule's example. -/

namespace Sys2Proof.Tests

open Sys2Proof Sys2Proof.Machine

/-! ### Well-formedness (R79): the catch-all row holds only words no other row selects -/

theorem test_wf_refuses_cls : WellFormed (.unrecognized 0x00E0) = false := by decide
theorem test_wf_refuses_ret : WellFormed (.unrecognized 0x00EE) = false := by decide
theorem test_wf_refuses_jump : WellFormed (.unrecognized 0x1234) = false := by decide
theorem test_wf_refuses_families_3_4_6_7 :
    ([0x3000#16, 0x4FFF, 0x6123, 0x7A00].any fun w => WellFormed (.unrecognized w)) = false := by decide
theorem test_wf_refuses_5XY0 : WellFormed (.unrecognized 0x5120) = false := by decide
theorem test_wf_refuses_9XY0 : WellFormed (.unrecognized 0x9AB0) = false := by decide
theorem test_wf_refuses_8XY7_8XYE :
    ([0x8127#16, 0x812E, 0x8120].any fun w => WellFormed (.unrecognized w)) = false := by decide
theorem test_wf_refuses_families_A_to_D :
    ([0xA000#16, 0xB123, 0xC0FF, 0xDFF5].any fun w => WellFormed (.unrecognized w)) = false := by decide
theorem test_wf_refuses_EX9E_EXA1 : ([0xE29E#16, 0xE2A1].any fun w => WellFormed (.unrecognized w)) = false := by decide
theorem test_wf_refuses_FX07_to_FX65 :
    ([0xF007#16, 0xF10A, 0xF215, 0xF318, 0xF41E, 0xF529, 0xF633, 0xF755, 0xF865].any
      fun w => WellFormed (.unrecognized w)) = false := by decide
/-- Vector F7. -/
theorem test_wf_admits_unrecognized_words :
    ([0x0000#16, 0x00E1, 0x5121, 0x9121, 0x8128, 0x812F, 0xE1FF, 0xE19F, 0xF1FF, 0xF10B].all
      fun w => WellFormed (.unrecognized w)) = true := by decide

/-! ### Decoding and encoding: one word of each row, bit by bit from its encoding -/

/-- The word decodes to the instruction, is its encoding, and stands big-endian in memory. -/
def codes (i : Instr) (w : Nat) : Bool :=
  decodeTableWord 16 w == some i && (encode i).toNat == w && WellFormed i &&
    encodeBytes i == [BitVec.ofNat 8 (w / 256), BitVec.ofNat 8 w]

theorem test_decode_cls : codes .cls 0b0000000011100000 = true := by decide
theorem test_decode_ret : codes .ret 0b0000000011101110 = true := by decide
theorem test_decode_jp : codes (.jp 0x234) 0b0001001000110100 = true := by decide
theorem test_decode_call : codes (.call 0xA5C) 0b0010101001011100 = true := by decide
theorem test_decode_seByte : codes (.seByte 3 0x42) 0b0011001101000010 = true := by decide
theorem test_decode_sneByte : codes (.sneByte 12 0x81) 0b0100110010000001 = true := by decide
theorem test_decode_seReg : codes (.seReg 1 2) 0b0101000100100000 = true := by decide
theorem test_decode_ldByte : codes (.ldByte 10 0x2B) 0b0110101000101011 = true := by decide
theorem test_decode_addByte : codes (.addByte 7 0xFF) 0b0111011111111111 = true := by decide
theorem test_decode_ldReg : codes (.ldReg 1 2) 0b1000000100100000 = true := by decide
theorem test_decode_orReg : codes (.orReg 13 6) 0b1000110101100001 = true := by decide
theorem test_decode_andReg : codes (.andReg 4 11) 0b1000010010110010 = true := by decide
theorem test_decode_xorReg : codes (.xorReg 9 5) 0b1000100101010011 = true := by decide
theorem test_decode_addReg : codes (.addReg 15 1) 0b1000111100010100 = true := by decide
theorem test_decode_subReg : codes (.subReg 8 14) 0b1000100011100101 = true := by decide
theorem test_decode_shr : codes (.shr 4 5) 0b1000010001010110 = true := by decide
theorem test_decode_subny : codes (.subny 3 10) 0b1000001110100111 = true := by decide
theorem test_decode_shl : codes (.shl 2 12) 0b1000001011001110 = true := by decide
theorem test_decode_sneReg : codes (.sneReg 1 7) 0b1001000101110000 = true := by decide
theorem test_decode_ldI : codes (.ldI 0x50A) 0b1010010100001010 = true := by decide
theorem test_decode_jpV0 : codes (.jpV0 0x3FF) 0b1011001111111111 = true := by decide
theorem test_decode_rnd4 : codes (.rnd4 3 0x0E) 0b1100001100001110 = true := by decide
theorem test_decode_drw : codes (.drw 10 11 5) 0b1101101010110101 = true := by decide
theorem test_decode_skp : codes (.skp 2) 0b1110001010011110 = true := by decide
theorem test_decode_sknp : codes (.sknp 14) 0b1110111010100001 = true := by decide
theorem test_decode_ldVxDt : codes (.ldVxDt 3) 0b1111001100000111 = true := by decide
theorem test_decode_waitk : codes (.waitk 1) 0b1111000100001010 = true := by decide
theorem test_decode_ldDtVx : codes (.ldDtVx 5) 0b1111010100010101 = true := by decide
theorem test_decode_ldStVx : codes (.ldStVx 6) 0b1111011000011000 = true := by decide
theorem test_decode_addI : codes (.addI 15) 0b1111111100011110 = true := by decide
theorem test_decode_ldF : codes (.ldF 9) 0b1111100100101001 = true := by decide
theorem test_decode_ldB : codes (.ldB 10) 0b1111101000110011 = true := by decide
theorem test_decode_storeRegs : codes (.storeRegs 14) 0b1111111001010101 = true := by decide
theorem test_decode_loadRegs : codes (.loadRegs 4) 0b1111010001100101 = true := by decide
theorem test_decode_unrecognized : codes (.unrecognized 0x5121) 0b0101000100100001 = true := by decide
/-- Vector F7: no fixed digit is matched loosely (R77). -/
theorem test_decode_exact_digits :
    ([0x0000#16, 0x00E1, 0x5121, 0x9121, 0x8128, 0x812F, 0xE1FF, 0xE19F, 0xF1FF, 0xF10B].all
      fun w => decodeWord w == .unrecognized w) = true := by decide
theorem test_decode_truncated : decodeBytes [0x12] = .error .truncated := by decide
/-- R85, R86. -/
theorem test_assembly :
    assembly (.drw 10 11 5) = "DRW VA, VB, 5" ∧ assembly (.ldI 0x300) = "LD I, 0x300" ∧
    assembly (.storeRegs 14) = "LD [I], VE" ∧ assembly (.unrecognized 0x5121) = ".word 0x5121" := by decide
theorem test_halt_word : (encode (halt 0x20C)).toNat = 0x120C := by decide

/-! ### One step of each instruction -/

/-- The state the tests start from, with a few registers set. -/
def start (pc : Nat) (regs : List (Reg × Byte)) : State :=
  regs.foldl (fun s p => s.setV p.1 p.2) (State.reset.setPc (BitVec.ofNat 16 pc))

/-- Bytes put into memory. -/
def State.withBytes (s : State) (base : Nat) (bytes : List Byte) : State := s.setMem (Memory.writeRange s.mem base bytes)

/-- What holds of the state after one step that runs the word. -/
def after (s : State) (w : Nat) (p : State → Bool) : Bool :=
  match step (s.withFetchWord 16 w) with
  | .next t => p t
  | .fault _ => false
  | .refused _ => false

/-- The lit pixels among the first columns and rows. -/
def lit (t : State) (xs ys : List Nat) : List (Nat × Nat) :=
  ys.flatMap fun y => (xs.filter fun x => t.pixel x y).map fun x => (x, y)

/-- D1. -/
theorem test_cls : after ((start 0x200 [(15, 7)]).setFb (setPixel Config.blankFb 63 31 true)) 0x00E0
    (fun t => !t.pixel 63 31 && t.readV 15 == 7 && t.pc == 0x202) = true := by decide
/-- C1. -/
theorem test_ret : after ((start 0x210 []).setStack [0x206]) 0x00EE
    (fun t => t.pc == 0x206 && t.stack == []) = true := by decide
/-- C2. -/
theorem test_ret_underflow : after (start 0x210 []) 0x00EE
    (fun t => t.pc == 0x210 && t.fault == some ⟨.stackUnderflow, 0x210, some 0x00EE⟩) = true := by decide
/-- C3. -/
theorem test_jp : after (start 0x200 []) 0x1234 (fun t => t.pc == 0x234) = true := by decide
/-- C5. -/
theorem test_call : after (start 0x204 []) 0x2210 (fun t => t.pc == 0x210 && t.stack == [0x206]) = true := by decide
/-- C6. -/
theorem test_call_overflow :
    after (State.setStack { start 0x204 [] with params := { Config.defaultParams with stackCapacity := some 2 } } [1, 2])
      0x2210 (fun t => t.pc == 0x204 && t.stack == [1, 2] &&
        t.fault == some ⟨.stackOverflow 2, 0x204, some 0x2210⟩) = true := by decide
/-- C8. -/
theorem test_jpV0 : after (start 0x200 [(0, 0xFF)]) 0xBFFF (fun t => t.pc == 0x10FE) = true := by decide
/-- C9. -/
theorem test_jpV0_uses_V0 : after (start 0x200 [(0, 1), (3, 0x55)]) 0xB3FF (fun t => t.pc == 0x400) = true := by decide
/-- K1. -/
theorem test_seByte : after (start 0x210 [(3, 0x42)]) 0x3342 (fun t => t.pc == 0x214) = true := by decide
/-- K2. -/
theorem test_seByte_not : after (start 0x210 [(3, 0x41)]) 0x3342 (fun t => t.pc == 0x212) = true := by decide
/-- K3. -/
theorem test_sneByte_not : after (start 0x210 [(3, 0x42)]) 0x4342 (fun t => t.pc == 0x212) = true := by decide
/-- K4. -/
theorem test_sneByte : after (start 0x210 [(3, 0x41)]) 0x4342 (fun t => t.pc == 0x214) = true := by decide
/-- K5. -/
theorem test_seReg : after (start 0x300 [(1, 7), (2, 7)]) 0x5120 (fun t => t.pc == 0x304) = true := by decide
/-- K7. -/
theorem test_sneReg : after (start 0x300 [(1, 7), (2, 8)]) 0x9120 (fun t => t.pc == 0x304) = true := by decide
/-- K8. -/
theorem test_sneReg_same : after (start 0x300 [(1, 7)]) 0x9110 (fun t => t.pc == 0x302) = true := by decide
/-- K6. -/
theorem test_unrecognized : after (start 0x300 [(1, 7), (2, 7)]) 0x5121 (fun t => t.pc == 0x302) = true := by decide
/-- A1. -/
theorem test_ldByte : after (start 0x200 [(15, 0x77)]) 0x6F00 (fun t => t.readV 15 == 0) = true := by decide
/-- A2. -/
theorem test_addByte : after (start 0x200 [(0, 0xFA), (15, 0x77)]) 0x700A
    (fun t => t.readV 0 == 4 && t.readV 15 == 0x77) = true := by decide
/-- A4. -/
theorem test_ldReg : after (start 0x200 [(2, 9)]) 0x8120 (fun t => t.readV 1 == 9 && t.readV 2 == 9) = true := by decide
/-- R133's and A5's values. -/
theorem test_orReg : after (start 0x200 [(1, 0x0F), (2, 0xF0), (15, 1)]) 0x8121
    (fun t => t.readV 1 == 0xFF && t.readV 15 == 1) = true := by decide
/-- R134's example. -/
theorem test_andReg : after (start 0x200 [(1, 0x3C), (2, 0x0F)]) 0x8122 (fun t => t.readV 1 == 0x0C) = true := by decide
/-- R135's example. -/
theorem test_xorReg : after (start 0x200 [(1, 0x3C), (2, 0x0F)]) 0x8123 (fun t => t.readV 1 == 0x33) = true := by decide
/-- S3. -/
theorem test_addReg : after (start 0x200 [(1, 200), (2, 100)]) 0x8124
    (fun t => t.readV 1 == 44 && t.readV 15 == 1) = true := by decide
/-- A9. -/
theorem test_addReg_to_VF : after (start 0x200 [(15, 0xC8), (1, 0x64)]) 0x8F14 (fun t => t.readV 15 == 0x2C) = true := by
  decide
/-- S4. -/
theorem test_subReg : after (start 0x200 [(1, 5), (2, 10), (15, 9)]) 0x8125
    (fun t => t.readV 1 == 251 && t.readV 15 == 0) = true := by decide
/-- A14. -/
theorem test_subReg_to_VF : after (start 0x200 [(15, 3), (1, 5)]) 0x8F15 (fun t => t.readV 15 == 0xFE) = true := by decide
/-- A15. -/
theorem test_shr : after (start 0x200 [(4, 5), (5, 0xFF)]) 0x8456
    (fun t => t.readV 4 == 2 && t.readV 15 == 1 && t.readV 5 == 0xFF) = true := by decide
/-- A18. -/
theorem test_subny : after (start 0x200 [(0, 5), (1, 10)]) 0x8017
    (fun t => t.readV 1 == 5 && t.readV 0 == 5 && t.readV 15 == 1) = true := by decide
/-- A20. -/
theorem test_subny_from_VF : after (start 0x200 [(15, 3), (1, 10)]) 0x8F17
    (fun t => t.readV 1 == 7 && t.readV 15 == 1) = true := by decide
/-- A23. -/
theorem test_shl : after (start 0x200 [(4, 0x81)]) 0x840E (fun t => t.readV 4 == 2 && t.readV 15 == 1) = true := by decide
/-- M1. -/
theorem test_ldI : after (start 0x200 []) 0xA300 (fun t => t.i == 0x300) = true := by decide
/-- M2. -/
theorem test_addI : after ((start 0x200 [(2, 2)]).setI 0x0FFF) 0xF21E
    (fun t => t.i == 0x1001 && t.readV 15 == 0) = true := by decide
/-- M4. -/
theorem test_addI_overflow : after ((start 0x200 [(0, 1)]).setI 0xFFFF) 0xF01E
    (fun t => t.i == 0xFFFF && t.fault == some ⟨.indexOverflow 0x10000, 0x200, some 0xF01E⟩) = true := by decide
/-- M5. -/
theorem test_ldF : after (start 0x200 [(5, 0x1A)]) 0xF529 (fun t => t.i == 0x082) = true := by decide
/-- S8. -/
theorem test_ldB : after ((start 0x200 [(0, 157)]).setI 0x300) 0xF033
    (fun t => Memory.readRange t.mem 0x300 3 == [1, 5, 7] && t.i == 0x300) = true := by decide
/-- M7. -/
theorem test_ldB_out_of_range : after ((start 0x200 [(0, 255)]).setI 0xFFE) 0xF033
    (fun t => Memory.readRange t.mem 0xFFE 2 == [0, 0] &&
      t.fault == some ⟨.memOob 0x1000 .write, 0x200, some 0xF033⟩) = true := by decide
/-- M8. -/
theorem test_storeRegs : after ((start 0x200 [(0, 1), (1, 2), (2, 3), (3, 4), (4, 5)]).setI 0x400) 0xF355
    (fun t => Memory.readRange t.mem 0x400 5 == [1, 2, 3, 4, 0] && t.i == 0x400) = true := by decide
/-- M9. -/
theorem test_storeRegs_out_of_range : after ((start 0x200 [(0, 1)]).setI 0xFFD) 0xF355
    (fun t => t.readByte 0xFFD == 0 && t.fault == some ⟨.memOob 0x1000 .write, 0x200, some 0xF355⟩) = true := by decide
/-- R155's example. -/
theorem test_loadRegs : after (State.withBytes ((start 0x200 [(3, 6)]).setI 0x400) 0x400 [9, 8, 7]) 0xF265
    (fun t => t.readV 0 == 9 && t.readV 1 == 8 && t.readV 2 == 7 && t.readV 3 == 6) = true := by decide
/-- M12. -/
theorem test_loadRegs_out_of_range : after ((start 0x200 [(0, 6)]).setI 0x1000) 0xF065
    (fun t => t.readV 0 == 6 && t.fault == some ⟨.memOob 0x1000 .read, 0x200, some 0xF065⟩) = true := by decide
/-- G2: the result does not depend on the draw. -/
theorem test_rnd4_masked : ∃ t, step ((start 0x200 []).withFetchWord 16 0xC3F0) = .next t ∧ t.readV 3 = 0 := by
  refine ⟨_, rfl, ?_⟩
  change (BitVec.setWidth 8 (Config.rngDraw 0) &&& 0xF0#8) = 0
  generalize Config.rngDraw 0 = r
  revert r; decide
/-- D3: clipped at the corner, no collision. -/
theorem test_drw_clips : after ((start 0x200 [(0, 62), (1, 30), (15, 1)]).setI 0x050) 0xD015
    (fun t => lit t [0, 1, 61, 62, 63] [0, 1, 29, 30, 31] == [(62, 30), (63, 30), (62, 31)] && t.readV 15 == 0) = true := by
  decide
/-- D8: the origin is VF's old value. -/
theorem test_drw_origin_in_VF :
    after (State.withBytes ((start 0x200 [(15, 5)]).setI 0x300) 0x300 [0x80]) 0xDF11
      (fun t => lit t [0, 4, 5, 6] [0, 1] == [(5, 0)] && t.readV 15 == 0) = true := by decide
/-- I1. -/
theorem test_skp : after ((start 0x220 [(2, 5)]).setKey 5 true) 0xE29E (fun t => t.pc == 0x224) = true := by decide
/-- I5. -/
theorem test_skp_key_range : after (start 0x220 [(2, 0x10)]) 0xE29E
    (fun t => t.pc == 0x220 && t.fault == some ⟨.keyRange 0x10, 0x220, some 0xE29E⟩) = true := by decide
/-- I3. -/
theorem test_sknp : after (start 0x220 [(2, 5)]) 0xE2A1 (fun t => t.pc == 0x224) = true := by decide
/-- I4. -/
theorem test_sknp_held : after ((start 0x220 [(2, 5)]).setKey 5 true) 0xE2A1 (fun t => t.pc == 0x222) = true := by decide
/-- I6. -/
theorem test_waitk : after (start 0x230 [(0, 9)]) 0xF00A (fun t => t.pc == 0x230 && t.readV 0 == 9) = true := by decide
/-- I7, both values of the parameter. -/
theorem test_waitk_held : ([false, true].all fun b =>
    after (State.setKey (State.setKey
        { start 0x230 [(0, 9)] with params := { Config.defaultParams with storeKey := b } } 7 true) 3 true) 0xF00A
      (fun t => t.pc == 0x232 && t.readV 0 == (if b then 3 else 9))) = true := by decide
/-- T2. -/
theorem test_ldVxDt : after ((start 0x200 []).setDt 0x3C) 0xF307 (fun t => t.readV 3 == 0x3C) = true := by decide
/-- T1. -/
theorem test_ldDtVx : after (start 0x200 [(3, 0x0A)]) 0xF315 (fun t => t.dt == 0x0A && t.st == 0) = true := by decide
/-- T3. -/
theorem test_ldStVx : after (start 0x200 [(3, 2)]) 0xF318 (fun t => t.st == 2 && soundOn t && t.dt == 0) = true := by decide

/-! ### The cycle and the host's operations -/

/-- F5: an odd pc. -/
theorem test_fetch_odd : after (start 0x201 []) 0x602A (fun t => t.readV 0 == 0x2A && t.pc == 0x203) = true := by decide
/-- F4. -/
theorem test_fetch_out_of_range : step (start 0xFFF []) =
    .next ((start 0xFFF []).setFault (some ⟨.memOob 0x1000 .fetch, 0xFFF, none⟩)) := rfl
/-- F2, from a state with nothing placed. -/
theorem test_fetch_last_word : step (start 0xFFE []) = .next (start 0x1000 []) := rfl
/-- T5. -/
theorem test_tick : perform .tick ((start 0x200 []).setDt 5) = .next ((start 0x200 []).setDt 4) := rfl
/-- The first operation of a schedule is the one a step performs, and leaves the schedule. -/
theorem test_schedule : step ((start 0x200 []).setSchedule (Schedule.cycles.after [.key 7 true, .tick])) =
    .next (((start 0x200 []).setKey 7 true).setSchedule (Schedule.cycles.after [.tick])) := rfl
/-- A host that ticks for ever: a step is a TICK, and the host stays as it is. -/
theorem test_host_ticks : step (((start 0x200 []).setDt 5).setSchedule ⟨[], .repeating .tick []⟩) =
    .next (((start 0x200 []).setDt 4).setSchedule ⟨[], .repeating .tick []⟩) := rfl
/-- A word placed before a free host is run by the next step. -/
theorem test_placed_before_free_host : after ((start 0x200 []).setSchedule ⟨[], .free 3⟩) 0xA300
    (fun t => t.i == 0x300 && t.schedule == ⟨[], .free 3⟩) = true := by decide
/-- The program of P1 stands at 0x200 after RESET, glyph 0 at 0x050 (R240). -/
theorem test_reset_program : (match perform (.reset [0x60, 0x05, 0x61]) (start 0x300 [(1, 1)]) with
    | .next t => Memory.readRange t.mem 0x200 4 == [0x60, 0x05, 0x61, 0] && t.pc == 0x200 && t.readV 1 == 0 &&
        Memory.readRange t.mem 0x050 5 == [0xF0, 0x90, 0x90, 0x90, 0xF0]
    | .fault _ => false
    | .refused _ => false) = true := by decide
/-- P1's HALT word at its own address is a final state (R253). -/
theorem test_final : isFinal (State.withBytes (start 0x20C []) 0x20C [0x12, 0x0C]) = true := by decide

/-! ### Witnesses: for every statement with hypotheses, a state and operands that meet all of them together, one for each
clause, at the boundary values -/

/-- A state whose OPEN parameters are given. -/
def withParams (s : State) (cap : Option Nat) (storeKey : Bool) : State :=
  { s with params := { Config.defaultParams with stackCapacity := cap, storeKey := storeKey } }

/-- A faulted state, its record at pc. -/
def faultedState : State := (start 0x208 []).setFault (some ⟨.stackUnderflow, 0x208, some 0x00EE⟩)

theorem test_witness_LaunchBuildsFreshCore :
    Memory.wf Config.defaultParams.initMem ∧ Memory.wf faultedState.params.initMem ∧ (List.replicate 3584 (0#8)).length ≤ 3584 ∧
    3583 < (List.replicate 3584 (0#8)).length ∧ (4 < 5 ∧ 74 < 75) ∧
    (0x04F < 0x050 ∧ (0x0A0 ≤ 0x1FF ∧ 0x1FF < 0x200) ∧ 0x200 + (List.replicate 3584 (0#8)).length ≤ 4096) := by
  rw [List.length_replicate]; decide
theorem test_witness_OversizedProgramIsRefused :
    3584 < (List.replicate 3585 (0#8)).length ∧ (List.replicate 3584 (0#8)).length ≤ 3584 := by
  rw [List.length_replicate, List.length_replicate]; decide
theorem test_witness_StepKeepsInvariant :
    ∃ s t, StateInv s ∧ step s = .next t ∧ s.stack = [0x1000] ∧ s.params.stackCapacity = some 1 := by
  refine ⟨withParams ((start 0x200 []).setStack [0x1000]) (some 1) false, _, ⟨?_, ?_, ?_, ?_, ?_, ?_⟩, rfl, rfl, rfl⟩
  · decide
  · decide
  · decide
  · simp [withParams, Config.memSize]
  · simp [withParams]
  · simp [withParams, start, State.reset]
theorem test_witness_StepKeepsInvariant_faulted :
    StateInv faultedState ∧ step faultedState = .next faultedState := by
  refine ⟨⟨by decide, by decide, by decide, ?_, ?_, ?_⟩, rfl⟩
  · simp [faultedState, start, State.reset]
  · simp [faultedState, start, State.reset, Config.defaultParams]
  · simp [faultedState, start]
theorem test_witness_DecodeOfEncode :
    WellFormed (.drw 15 15 15) = true ∧ WellFormed (.unrecognized 0xFFFF) = true := by decide
theorem test_witness_UniqueRowSelects : 0 < opcodeRows.length ∧ 33 < opcodeRows.length := by decide
theorem test_witness_UnrecognizedWordIsNoOp :
    unrecognizedWord 0x0000 = true ∧ decodeWord 0x0000 = .unrecognized 0x0000 ∧ unrecognizedWord 0x00E0 = false := by decide
theorem test_witness_StepRunsDecodedInstruction :
    ((start 0xFFE []).fault = none ∧ (start 0xFFE []).pc.toNat ≤ 4094 ∧
      decodeBytes [(start 0xFFE []).readByte 0xFFE, (start 0xFFE []).readByte 0xFFF] = .ok (.unrecognized 0, []) ∧
      (start 0xFFE []).schedule = .cycles) ∧
    ((start 0xFFE []).setSchedule ⟨[.cycle], .free 0⟩).schedule.issue.1 = .cycle ∧
    (faultedState.fault = some ⟨.stackUnderflow, 0x208, some 0x00EE⟩ ∧ faultedState.schedule.issue.1 = .cycle) :=
  ⟨⟨rfl, by decide, rfl, rfl⟩, rfl, rfl, rfl⟩
theorem test_witness_FetchIsBigEndianOrFaults :
    (start 4094 []).pc.toNat ≤ 4094 ∧
    (4095 ≤ (start 4095 []).pc.toNat ∧ (start 4095 []).pc.toNat < 4096 ∧ (start 4095 []).fault = none) ∧
    (start 4096 []).pc.toNat ≥ 4096 := by decide
theorem test_witness_PlacedWordRunsNext :
    Memory.wf (start 0x200 []).mem ∧ Memory.wf (State.withBytes (start 0x200 []) 0xFFF [7]).mem := by decide
theorem test_witness_FaultCausesAreExact : (start 0x200 []).fault = none := rfl
theorem test_witness_FaultsArePrecise :
    ∃ s t r, s.fault = none ∧ perform .cycle s = .next t ∧ t.fault = some r ∧ r.word = none :=
  ⟨start 4095 [], _, _, rfl, rfl, rfl, rfl⟩
theorem test_witness_FaultsArePrecise_word :
    ∃ s t r, s.fault = none ∧ perform .cycle s = .next t ∧ t.fault = some r ∧ r.word = some 0x00EE :=
  ⟨State.withBytes (start 0x208 []) 0x208 [0x00, 0xEE], _, _, rfl, rfl, rfl, by decide⟩
theorem test_witness_FaultIsSticky :
    faultedState.fault = some ⟨.stackUnderflow, 0x208, some 0x00EE⟩ ∧ (List.replicate 3584 (0#8)).length ≤ 3584 :=
  ⟨rfl, by rw [List.length_replicate]⟩
theorem test_witness_DrawFlipsSpritePixels_ranges :
    ((0#4).toNat = 0 ∧ ((start 0x200 []).setI 0xFFFF).i.toNat + (0#4).toNat > 4096) ∧
    ((start 0x200 []).setI 0xFF1).i.toNat + (15#4).toNat ≤ 4096 ∧
    ((15#4).toNat ≠ 0 ∧ 4096 < ((start 0x200 []).setI 0xFF2).i.toNat + (15#4).toNat) := by decide
/-- The last pixel of the grid is drawn on a blank screen, one past the right edge is not. -/
theorem test_witness_DrawFlipsSpritePixels_drawn :
    Drawn ((start 0x200 [(0, 63), (1, 31)]).setI 0x050) 0 1 1 63 31 ∧
    ¬Drawn ((start 0x200 [(0, 63), (1, 31)]).setI 0x050) 0 1 1 64 31 ∧
    ((start 0x200 [(0, 63), (1, 31)]).setI 0x050).pixel 63 31 = false := by
  refine ⟨⟨0, 0, by decide, by decide, by decide, by decide, by decide, by decide, by decide⟩, ?_, by decide⟩
  rintro ⟨_, _, _, _, _, _, h, _⟩
  exact absurd h (by decide)
theorem test_witness_DrawFlipsSpritePixels_collision : ∃ px py,
    Drawn (((start 0x200 []).setI 0x050).setFb (setPixel Config.blankFb 3 4 true)) 0 1 5 px py ∧
    (((start 0x200 []).setI 0x050).setFb (setPixel Config.blankFb 3 4 true)).pixel px py = true :=
  ⟨3, 4, ⟨4, 3, by decide, by decide, by decide, by decide, by decide, by decide, by decide⟩, by decide⟩
theorem test_witness_DrawFlipsSpritePixels_no_collision :
    ¬∃ px py, Drawn (start 0x200 []) 0 1 0 px py ∧ (start 0x200 []).pixel px py = true := by
  rintro ⟨_, _, ⟨r, _, h, _⟩, _⟩
  exact absurd h (Nat.not_lt_zero r)
theorem test_witness_DrawingTwiceRestores : ∃ t, (0 : Reg) ≠ VF ∧ (1 : Reg) ≠ VF ∧
    ((start 0x200 []).setI 0xFFF).i.toNat + (1#4).toNat ≤ 4096 ∧
    exec (.drw 0 1 1) (State.withBytes ((start 0x200 []).setI 0xFFF) 0xFFF [0x80]) = .next t ∧ t.readV VF = 0 ∧
    Drawn (State.withBytes ((start 0x200 []).setI 0xFFF) 0xFFF [0x80]) 0 1 1 0 0 :=
  ⟨_, by decide, by decide, by decide, rfl, by decide,
    ⟨0, 0, by decide, by decide, by decide, by decide, by decide, by decide, by decide⟩⟩
theorem test_witness_FramebufferWriters : ∃ s t,
    exec .cls s = .next t ∧ t.pixel 63 31 ≠ s.pixel 63 31 :=
  ⟨(start 0x202 []).setFb (setPixel Config.blankFb 63 31 true), _, rfl, by decide⟩
theorem test_witness_FramebufferWriters_unread : ∃ s t f,
    (∀ x y n, Instr.cls ≠ .drw x y n) ∧ exec .cls s = .next t ∧ State.setFb s f ≠ s :=
  ⟨start 0x202 [], _, setPixel Config.blankFb 63 31 true, by simp, rfl,
    fun h => absurd (congrArg (fun u => u.pixel 63 31) h) (by decide)⟩
theorem test_witness_PcWriters : ∃ s t, State.fault s = none ∧ exec (.skp 2) s = .next t ∧ t.fault = none ∧ t.pc ≠ s.pc :=
  ⟨(start 0x222 [(2, 15)]).setKey 15 true, _, rfl, rfl, rfl, by decide⟩
theorem test_witness_SoundTimerIsUnread : ∃ s t b, exec (.ldVxDt 3) s = .next t ∧ State.st s ≠ b :=
  ⟨start 0x202 [], _, 9, rfl, by decide⟩
theorem test_witness_ResetForgetsTheOldCore : ∃ s s' t : State,
    s.params = s'.params ∧ perform (.reset [0x12, 0x00]) s = .next t ∧ s.pc ≠ s'.pc ∧ s'.fault ≠ none :=
  ⟨start 0x300 [], faultedState, _, rfl, rfl, by decide, by decide⟩
theorem test_witness_ReturnPopsStack :
    ((start 0x212 []).setStack [0xFFF, 0x206]).stack = [0xFFF] ++ [0x206] ∧ (start 0x212 []).stack = [] := ⟨rfl, rfl⟩
theorem test_witness_CallPushesPc :
    (start 0x206 []).params.stackCapacity ≠ some (start 0x206 []).stack.length ∧
    (withParams ((start 0x206 []).setStack [1]) (some 2) false).params.stackCapacity ≠ some [1#16].length ∧
    (withParams ((start 0x206 []).setStack [1, 2]) (some 2) false).params.stackCapacity = some [1#16, 2].length := by decide
theorem test_witness_ReturnAfterCall : ∃ t t' : State, (start 0x206 []).fault = none ∧
    exec (.call 0x210) (start 0x206 []) = .next t ∧ t.fault = none ∧ t'.stack = t.stack ∧ t'.pc = 0x214 :=
  ⟨_, (start 0x214 []).setStack [0x206], rfl, rfl, rfl, rfl, rfl⟩
theorem test_witness_SkipsOnImmediate :
    (start 0x212 [(3, 0x42)]).readV 3 = 0x42 ∧ (start 0x212 [(3, 0x41)]).readV 3 ≠ 0x42 := by decide
theorem test_witness_SkipsOnRegisters :
    (start 0x302 [(1, 7), (2, 7)]).readV 1 = (start 0x302 [(1, 7), (2, 7)]).readV 2 ∧
    (start 0x302 [(1, 7), (2, 8)]).readV 1 ≠ (start 0x302 [(1, 7), (2, 8)]).readV 2 := by decide
/-- The clause on VF of R136 to R140, and both outcomes of each flag at its boundary. -/
theorem test_witness_flag_clauses : (14 : Reg) ≠ VF ∧
    ((start 0x202 [(1, 0xFF)]).readV 1).toNat + 0 ≤ 255 ∧
    ((start 0x202 [(1, 0xFF), (2, 1)]).readV 1).toNat + ((start 0x202 [(1, 0xFF), (2, 1)]).readV 2).toNat > 255 ∧
    ((start 0x202 [(1, 7), (2, 7)]).readV 1).toNat ≥ ((start 0x202 [(1, 7), (2, 7)]).readV 2).toNat ∧
    ¬((start 0x202 [(1, 6), (2, 7)]).readV 1).toNat ≥ ((start 0x202 [(1, 6), (2, 7)]).readV 2).toNat := by decide
theorem test_witness_FlagAliasing : (0 : Reg) ≠ VF ∧ (14 : Reg) ≠ VF ∧
    ((200, 3, 250) : Nat × Nat × Nat) = (((start 0x202 [(0, 200), (1, 3), (15, 250)]).readV 0).toNat,
      ((start 0x202 [(0, 200), (1, 3), (15, 250)]).readV 1).toNat,
      ((start 0x202 [(0, 200), (1, 3), (15, 250)]).readV VF).toNat) := by decide
theorem test_witness_RegisterWriters : ∃ s t,
    exec (.subny 15 1) s = .next t ∧ t.readV 15 ≠ s.readV 15 ∧ t.readV 1 ≠ s.readV 1 :=
  ⟨start 0x202 [(15, 3), (1, 10)], _, rfl, by decide, by decide⟩
theorem test_witness_FieldWriters_index : ∃ t, exec (.ldI 0x300) (start 0x202 []) = .next t ∧ t.i ≠ (start 0x202 []).i :=
  ⟨_, rfl, by decide⟩
theorem test_witness_FieldWriters_stack :
    ∃ t, exec (.call 0x300) (start 0x202 []) = .next t ∧ t.stack ≠ (start 0x202 []).stack := ⟨_, rfl, by decide⟩
theorem test_witness_FieldWriters_timers : ∃ t u, exec (.ldDtVx 1) (start 0x202 [(1, 9)]) = .next t ∧
    t.dt ≠ (start 0x202 [(1, 9)]).dt ∧ exec (.ldStVx 1) (start 0x202 [(1, 9)]) = .next u ∧
    u.st ≠ (start 0x202 [(1, 9)]).st := ⟨_, _, rfl, by decide, rfl, by decide⟩
theorem test_witness_FieldWriters_memory :
    ∃ t, exec (.storeRegs 0) (start 0x202 [(0, 9)]) = .next t ∧ t.mem ≠ (start 0x202 [(0, 9)]).mem :=
  ⟨_, rfl, by decide⟩
theorem test_witness_OnlyRandomDraws : ∃ t u,
    exec (.rnd4 3 0x0E) (start 0x202 []) = .next t ∧ exec .cls (start 0x202 []) = .next u ∧
    ¬∃ x nn, Instr.cls = .rnd4 x nn := ⟨_, _, rfl, rfl, by simp⟩
theorem test_witness_IndexAdd :
    ((start 0x202 [(0, 0xFF)]).setI 0xFF00).i.toNat + ((start 0x202 [(0, 0xFF)]).readV 0).toNat ≤ 0xFFFF ∧
    0xFFFF < ((start 0x202 [(0, 1)]).setI 0xFFFF).i.toNat + ((start 0x202 [(0, 1)]).readV 0).toNat := by decide
theorem test_witness_StoreDecimalDigits : Memory.wf ((start 0x202 []).setI 0xFFD).mem ∧
    ((start 0x202 []).setI 0xFFD).i.toNat + 2 < 4096 ∧ 4096 ≤ ((start 0x202 []).setI 0xFFE).i.toNat + 2 := by decide
theorem test_witness_StoreRegisters : Memory.wf ((start 0x202 []).setI 0xFF0).mem ∧
    ((start 0x202 []).setI 0xFF0).i.toNat + (15 : Reg).val < 4096 ∧
    4096 ≤ ((start 0x202 []).setI 0xFF1).i.toNat + (15 : Reg).val ∧ (15 : Reg) ≤ 15 := by decide
theorem test_witness_LoadRegisters :
    ((start 0x202 []).setI 0xFF1).i.toNat + (14 : Reg).val < 4096 ∧ (14 : Reg) ≤ 14 ∧ (14 : Reg) < 15 ∧
    4096 ≤ ((start 0x202 []).setI 0xFF2).i.toNat + (14 : Reg).val := by decide
theorem test_witness_StoreThenLoadRegisters : ∃ t t' : State, Memory.wf ((start 0x202 [(0, 9)]).setI 0xFFF).mem ∧
    ((start 0x202 [(0, 9)]).setI 0xFFF).i.toNat + (0 : Reg).val < 4096 ∧
    exec (.storeRegs 0) ((start 0x202 [(0, 9)]).setI 0xFFF) = .next t ∧ t'.mem = t.mem ∧ t'.i = t.i ∧ t'.readV 0 = 7 :=
  ⟨_, _, by decide, by decide, rfl, State.setV_mem _ 0 7, State.setV_i _ 0 7, State.setV_readV_self _ 0 7⟩
/-- Vector M13's form, FX55 with X = 0, at the last address: the byte is the low byte of the fetch at 0xFFE. -/
theorem test_witness_StoredBytesAreFetched_low : ∃ t u : State, Memory.wf ((start 0x202 [(0, 0x5A)]).setI 0xFFF).mem ∧
    ((start 0x202 [(0, 0x5A)]).setI 0xFFF).i.toNat + (0 : Reg).val < 4096 ∧ (0 : Reg) ≤ 0 ∧
    exec (.storeRegs 0) ((start 0x202 [(0, 0x5A)]).setI 0xFFF) = .next t ∧ u.mem = t.mem ∧ u.pc.toNat ≤ 4094 ∧
    u.pc.toNat + 1 = ((start 0x202 [(0, 0x5A)]).setI 0xFFF).i.toNat + (0 : Reg).val :=
  ⟨_, State.setPc _ 0xFFE, by decide, by decide, by decide, rfl, State.setPc_mem _ _, by decide, by decide⟩
/-- Vector M13: the high byte. -/
theorem test_witness_StoredBytesAreFetched_high : ∃ t u : State, Memory.wf ((start 0x202 [(0, 0x5A)]).setI 0x202).mem ∧
    ((start 0x202 [(0, 0x5A)]).setI 0x202).i.toNat + (0 : Reg).val < 4096 ∧ (0 : Reg) ≤ 0 ∧
    exec (.storeRegs 0) ((start 0x202 [(0, 0x5A)]).setI 0x202) = .next t ∧ u.mem = t.mem ∧ u.pc.toNat ≤ 4094 ∧
    u.pc.toNat = ((start 0x202 [(0, 0x5A)]).setI 0x202).i.toNat + (0 : Reg).val ∧
    fetch u = .ok 0x5A00 :=
  ⟨_, State.setPc _ 0x202, by decide, by decide, by decide, rfl, State.setPc_mem _ _, by decide, by decide, rfl⟩
theorem test_witness_StoredBytesAreFetched_digits : ∃ t u : State, Memory.wf ((start 0x202 [(0, 157)]).setI 0xFFD).mem ∧
    ((start 0x202 [(0, 157)]).setI 0xFFD).i.toNat + 2 < 4096 ∧ 2 < 3 ∧
    exec (.ldB 0) ((start 0x202 [(0, 157)]).setI 0xFFD) = .next t ∧ u.mem = t.mem ∧ u.pc.toNat ≤ 4094 ∧
    (u.pc.toNat = ((start 0x202 [(0, 157)]).setI 0xFFD).i.toNat + 1 ∧
      u.pc.toNat + 1 = ((start 0x202 [(0, 157)]).setI 0xFFD).i.toNat + 2) ∧ fetch u = .ok 0x0507 :=
  ⟨_, State.setPc _ 0xFFE, by decide, by decide, by decide, rfl, State.setPc_mem _ _, by decide, by decide, rfl⟩
theorem test_witness_MemoryReadsLastWrite : Memory.wf [(0x050, 0x00#8), (4095, 7)] ∧ 4095 < 4096 ∧ 0x050 ≠ 4095 := by
  decide
theorem test_witness_CanonicalMemoryIsUnique : Memory.wf [(0, 1#8)] ∧ Memory.wf (Memory.write [] 0 1) ∧
    ∀ a, a < 4096 → Memory.read [(0, 1#8)] a = Memory.read (Memory.write [] 0 1) a :=
  ⟨by decide, by decide, fun _ _ => rfl⟩
theorem test_witness_KeySkips : (((start 0x222 [(2, 15)]).readV 2).toNat = (15 : Fin 16).val ∧
    ((start 0x222 [(2, 15)]).setKey 15 true).readKey 15 = true ∧ (start 0x222 [(2, 15)]).readKey 15 = false) ∧
    15 < ((start 0x222 [(2, 16)]).readV 2).toNat := by decide
theorem test_witness_WaitForKey : (∀ k, (start 0x232 []).readKey k = false) ∧
    (((start 0x232 []).setKey 15 true).readKey 15 = true ∧
      ∀ j, j < 15 → ((start 0x232 []).setKey 15 true).readKey j = false) ∧
    (withParams (start 0x232 []) none false).params.storeKey = false ∧
    (withParams (start 0x232 []) none true).params.storeKey = true := by decide
/-- A core at an FX0A at 0xFFE, with and without a key. -/
theorem test_witness_WaitSpinsUntilKey :
    let s := State.withBytes (start 0xFFE []) 0xFFE [0xF0, 0x0A]
    s.fault = none ∧ s.schedule = .cycles ∧ s.schedule.issue.1 = .cycle ∧ s.pc.toNat ≤ 4094 ∧ decodeWord (wordAt s) = .waitk 0 ∧
      (∀ k, s.readKey k = false) ∧ (s.setKey 0 true).readKey 0 = true := by decide
theorem test_witness_KeyOverwritesFlag : (14 : Fin 16) ≠ 15 := by decide
theorem test_witness_ReadPorts : 63 < 64 ∧ 31 < 32 := by decide
theorem test_witness_EveryInterleavingRuns : ∃ t,
    performAll [.tick, .cycle, .key 3 true] (start 0x200 []) = .next t ∧ t.pc = 0x202 := ⟨_, rfl, rfl⟩
theorem test_witness_InfiniteSequencesRun : ∃ t,
    performAll ((List.range 3).map (Schedule.nth ⟨[.cycle], .repeating .tick []⟩))
      ((start 0x200 []).setSchedule ⟨[.cycle], .repeating .tick []⟩) = .next t ∧ t.pc = 0x202 ∧
    0 < [HostOp.tick].length := ⟨_, rfl, rfl, by decide⟩
theorem test_witness_NoProgressWithoutCycles : ∀ k, k < 100 →
    Schedule.nth ⟨[.key 3 true], .repeating .tick []⟩ k ≠ .cycle ∧
    ∀ p, Schedule.nth ⟨[.key 3 true], .repeating .tick []⟩ k ≠ .reset p := by
  intro k _
  cases k <;> simp [Schedule.nth, HostTail.nth, Nat.mod_one]
theorem test_witness_FinalStateStays : isFinal (State.withBytes (start 0xFFE []) 0xFFE [0x1F, 0xFE]) = true ∧
    ∀ p, HostOp.reset p ∉ [HostOp.cycle, .tick, .key 3 true, .readFb] := ⟨by decide, by simp⟩

end Sys2Proof.Tests
end

section
/-! Family 10_state. Execute(w) as one equation over all instructions (`exec_eq`, `exec_cases`), which fields and registers
an instruction changes, that none reads ST, and that every host operation keeps the invariant; after them the statements of
spec/10_state.md. -/

namespace Sys2Proof.Machine

/-! ### What each instruction does when it raises no fault -/

/-- Where a skip leaves pc (R120). -/
def skipPc (c : Bool) (s : State) : Word := if c then s.pc + 2 else s.pc

theorem skipIf_eq_setPc (c : Bool) (s : State) : skipIf c s = s.setPc (skipPc c s) := by
  cases c <;> rfl

/-- Writing a register's own value changes nothing. -/
@[simp] theorem State.setV_readV_eq_self (s : State) (x : Reg) : s.setV x (s.readV x) = s := by
  simp [State.setV, State.readV]

/-- Where FX0A leaves pc: at itself while no key is held (R172). -/
def waitPc (s : State) : Word := if s.lowestHeldKey = none then s.pc - 2 else s.pc

/-- What FX0A leaves in VX: the lowest held key where FX0A_STORE_KEY is true, else the old value (R172). -/
def waitValue (s : State) (x : Reg) : Byte :=
  if s.params.storeKey then s.lowestHeldKey.elim (s.readV x) (BitVec.ofNat 8) else s.readV x

theorem execWaitk_eq (s : State) (x : Reg) : execWaitk x s = .next ((s.setV x (waitValue s x)).setPc (waitPc s)) := by
  cases hk : s.lowestHeldKey with
  | none => simp [execWaitk, waitPc, waitValue, hk, State.rewindPc]
  | some k =>
    cases hp : s.params.storeKey <;> simp [execWaitk, waitPc, waitValue, hk, hp] <;> rfl

/-- The state an instruction that raises no fault leaves: one row for each meaning, as an update of the state. -/
def completed (i : Instr) (s : State) : State :=
  match i with
  | .cls => s.setFb Config.blankFb
  | .ret => (s.setStack s.stack.dropLast).setPc (s.stack.getLast?.getD 0)
  | .jp nnn => s.setPc (addrOperand nnn)
  | .call nnn => (s.setStack (s.stack ++ [s.pc])).setPc (addrOperand nnn)
  | .seByte x nn => s.setPc (skipPc (s.readV x == nn) s)
  | .sneByte x nn => s.setPc (skipPc (s.readV x != nn) s)
  | .seReg x y => s.setPc (skipPc (s.readV x == s.readV y) s)
  | .ldByte x nn => s.setV x nn
  | .addByte x nn => s.setV x (s.readV x + nn)
  | .ldReg x y => s.setV x (s.readV y)
  | .orReg x y => s.setV x (s.readV x ||| s.readV y)
  | .andReg x y => s.setV x (s.readV x &&& s.readV y)
  | .xorReg x y => s.setV x (s.readV x ^^^ s.readV y)
  | .addReg x y => writeFlagThen s (carryOut (s.readV x) (s.readV y)) x (s.readV x + s.readV y)
  | .subReg x y => writeFlagThen s (noBorrow (s.readV x) (s.readV y)) x (s.readV x - s.readV y)
  | .shr x _ => writeFlagThen s (shiftedOutRight (s.readV x)) x (s.readV x >>> 1)
  | .subny x y => writeFlagThen s (noBorrow (s.readV y) (s.readV x)) y (s.readV y - s.readV x)
  | .shl x _ => writeFlagThen s (shiftedOutLeft (s.readV x)) x (s.readV x <<< 1)
  | .sneReg x y => s.setPc (skipPc (s.readV x != s.readV y) s)
  | .ldI nnn => s.setI (addrOperand nnn)
  | .jpV0 nnn => s.setPc (addrOperand nnn + (s.readV V0).setWidth 16)
  | .rnd4 x nn => (s.setDraws (s.draws + 1)).setV x ((Config.rngDraw s.draws).setWidth 8 &&& nn)
  | .drw x y n => drawSprite s x y (Memory.readRange s.mem s.i.toNat n.toNat)
  | .skp x => s.setPc (skipPc (s.readKey (Fin.ofNat 16 (s.readV x).toNat)) s)
  | .sknp x => s.setPc (skipPc (!s.readKey (Fin.ofNat 16 (s.readV x).toNat)) s)
  | .ldVxDt x => s.setV x s.dt
  | .waitk x => (s.setV x (waitValue s x)).setPc (waitPc s)
  | .ldDtVx x => s.setDt (s.readV x)
  | .ldStVx x => s.setSt (s.readV x)
  | .addI x => s.setI (BitVec.ofNat 16 (s.i.toNat + (s.readV x).toNat))
  | .ldF x => s.setI (glyphAddr (s.readV x))
  | .ldB x => s.setMem (Memory.writeRange s.mem s.i.toNat (bcdDigits (s.readV x)))
  | .storeRegs x => s.setMem (Memory.writeRange s.mem s.i.toNat (blockOf s x))
  | .loadRegs x => { s with v := loadBlock s.v 0 (Memory.readRange s.mem s.i.toNat (x.val + 1)) }
  | .unrecognized _ => s

section ExecEq
variable {i : Instr} {s : State}

/-- An instruction that faults on a condition `P`, and completes on a condition that excludes `P`. -/
theorem exec_eq_of_cases {P Q : Prop} [Decidable P] {f : Fault} (hf : faultOfInstr i s = if P then some f else none)
    (hPQ : Q → ¬P) (h : P ∧ exec i s = .next (faultState s i f) ∨ Q ∧ exec i s = .next (completed i s)) :
    exec i s = .next ((faultOfInstr i s).elim (completed i s) (faultState s i)) := by
  rcases h with ⟨hP, e⟩ | ⟨hQ, e⟩
  · rw [hf, if_pos hP]; exact e
  · rw [hf, if_neg (hPQ hQ)]; exact e

/-- Execute(w), once for all instructions: the fault R200's table gives is taken, and where it gives none the
instruction completes (R70, R201). -/
theorem exec_eq (i : Instr) (s : State) :
    exec i s = .next ((faultOfInstr i s).elim (completed i s) (faultState s i)) := by
  cases i
  case ret =>
    refine exec_eq_of_cases (Q := s.stack ≠ []) rfl id ((execRet_cases s).imp_right ?_)
    rintro ⟨k, a, h, e⟩
    exact ⟨by simp [h], by simpa [exec, completed, h] using e⟩
  case skp x =>
    refine exec_eq_of_cases (Q := (s.readV x).toNat ≤ 15) rfl (by omega) ((execSkp_cases s x).imp_right ?_)
    rintro ⟨k, h, e⟩
    exact ⟨by omega, by simpa [exec, completed, h, skipIf_eq_setPc] using e⟩
  case sknp x =>
    refine exec_eq_of_cases (Q := (s.readV x).toNat ≤ 15) rfl (by omega) ((execSknp_cases s x).imp_right ?_)
    rintro ⟨k, h, e⟩
    exact ⟨by omega, by simpa [exec, completed, h, skipIf_eq_setPc] using e⟩
  case call nnn => exact exec_eq_of_cases rfl id (execCall_cases s nnn)
  case drw x y n => exact exec_eq_of_cases rfl (by omega) (execDrw_cases s x y n)
  case addI x => exact exec_eq_of_cases rfl (by omega) (execAddI_cases s x)
  case ldB x => exact exec_eq_of_cases rfl (by omega) (execLdB_cases s x)
  case storeRegs x => exact exec_eq_of_cases rfl (by omega) (execStoreRegs_cases s x)
  case loadRegs x => exact exec_eq_of_cases rfl (by omega) (execLoadRegs_cases s x)
  case waitk x => exact execWaitk_eq s x
  case seByte | sneByte | seReg | sneReg => exact congrArg Host.Outcome.next (skipIf_eq_setPc _ _)
  all_goals rfl

/-- Everything an instruction can do (R70, R201): take the fault R200's table gives, or complete. -/
theorem exec_cases {t : State} (h : exec i s = .next t) :
    (∃ f, faultOfInstr i s = some f ∧ t = faultState s i f) ∨ (faultOfInstr i s = none ∧ t = completed i s) := by
  rw [exec_eq, Host.Outcome.next.injEq] at h
  cases hf : faultOfInstr i s with
  | none => exact .inr ⟨rfl, by rw [← h, hf]; rfl⟩
  | some f => exact .inl ⟨f, rfl, by rw [← h, hf]; rfl⟩

end ExecEq

/-! ### What a completed instruction changes, field by field -/

section Fields
variable (i : Instr) (s : State)

@[simp] theorem completed_key : (completed i s).key = s.key := by cases i <;> rfl
@[simp] theorem completed_fault : (completed i s).fault = s.fault := by cases i <;> rfl
@[simp] theorem completed_schedule : (completed i s).schedule = s.schedule := by cases i <;> rfl
@[simp] theorem completed_params : (completed i s).params = s.params := by cases i <;> rfl

variable {i s}

/-- The writers of I (R23). -/
theorem completed_i_ne (h : (completed i s).i ≠ s.i) :
    (∃ nnn, i = .ldI nnn) ∨ (∃ x, i = .addI x) ∨ ∃ x, i = .ldF x := by
  cases i with
  | ldI nnn => exact .inl ⟨nnn, rfl⟩
  | addI x => exact .inr (.inl ⟨x, rfl⟩)
  | ldF x => exact .inr (.inr ⟨x, rfl⟩)
  | _ => exact absurd rfl h

/-- The writers of the stack (R26). -/
theorem completed_stack_ne (h : (completed i s).stack ≠ s.stack) : i = .ret ∨ ∃ nnn, i = .call nnn := by
  cases i with
  | ret => exact .inl rfl
  | call nnn => exact .inr ⟨nnn, rfl⟩
  | _ => exact absurd rfl h

/-- The writer of DT (R28). -/
theorem completed_dt_ne (h : (completed i s).dt ≠ s.dt) : ∃ x, i = .ldDtVx x := by
  cases i with
  | ldDtVx x => exact ⟨x, rfl⟩
  | _ => exact absurd rfl h

/-- The writer of ST (R28). -/
theorem completed_st_ne (h : (completed i s).st ≠ s.st) : ∃ x, i = .ldStVx x := by
  cases i with
  | ldStVx x => exact ⟨x, rfl⟩
  | _ => exact absurd rfl h

/-- The writers of memory (R22). -/
theorem completed_mem_ne (h : (completed i s).mem ≠ s.mem) : (∃ x, i = .ldB x) ∨ ∃ x, i = .storeRegs x := by
  cases i with
  | ldB x => exact .inl ⟨x, rfl⟩
  | storeRegs x => exact .inr ⟨x, rfl⟩
  | _ => exact absurd rfl h

/-- The writers of pc (R22, R24). -/
theorem completed_pc_ne (h : (completed i s).pc ≠ s.pc) : writesPc i = true := by
  cases i
  case ret | jp | call | jpV0 | seByte | sneByte | seReg | sneReg | skp | sknp | waitk => rfl
  all_goals exact absurd rfl h

end Fields

/-! ### Which registers a completed instruction changes -/

section Registers
variable {s : State} {r q : Reg} {b : Byte}

theorem State.eq_of_setV_readV_ne (h : (s.setV r b).readV q ≠ s.readV q) : q = r :=
  by_contra fun hq => h (State.setV_readV_ne s b hq)

/-- A flag write and a result write change VF and the destination only (R9). -/
theorem writeFlagThen_readV_ne {c : Bool} (h : (writeFlagThen s c r b).readV q ≠ s.readV q) : q = r ∨ q = VF := by
  by_contra hq
  obtain ⟨hr, hVF⟩ := not_or.1 hq
  exact h ((State.setV_readV_ne _ b hr).trans (State.setV_readV_ne s _ hVF))

/-- A block load leaves every register past its end (R155). -/
theorem getElem_loadBlock_of_le {v : Vector Byte 16} {bytes : List Byte} (h : bytes.length ≤ q.val) :
    (loadBlock v 0 bytes)[q.val] = v[q.val] := by
  rw [getElem_loadBlock, dif_neg (by omega)]

theorem completed_loadRegs_readV_ne {x : Reg} (h : (completed (.loadRegs x) s).readV q ≠ s.readV q) : q ≤ x := by
  by_contra hq
  exact h (getElem_loadBlock_of_le (by simpa using Nat.succ_le_of_lt (Fin.not_le.1 hq)))

theorem completed_waitk_readV_ne {x : Reg} (h : (completed (.waitk x) s).readV q ≠ s.readV q) :
    s.params.storeKey = true ∧ q = x := by
  refine ⟨by_contra fun hk => h ?_, State.eq_of_setV_readV_ne h⟩
  simp [completed, waitValue, hk]

/-- A register that changes is a destination, or VF of a flag writer (R21, R22). -/
theorem completed_readV_ne {i : Instr} (h : (completed i s).readV q ≠ s.readV q) :
    q ∈ destinations s.params i ∨ (q = VF ∧ writesFlag i = true) := by
  cases i
  case ldByte | addByte | ldReg | orReg | andReg | xorReg | rnd4 | ldVxDt =>
    exact .inl (List.mem_singleton.2 (State.eq_of_setV_readV_ne h))
  case addReg | subReg | shr | subny | shl =>
    exact (writeFlagThen_readV_ne h).imp List.mem_singleton.2 fun hq => ⟨hq, rfl⟩
  case drw => exact .inr ⟨State.eq_of_setV_readV_ne h, rfl⟩
  case waitk =>
    obtain ⟨hk, hq⟩ := completed_waitk_readV_ne h
    exact .inl (by simp [destinations, hk, hq])
  case loadRegs => exact .inl (by simpa [destinations] using completed_loadRegs_readV_ne h)
  all_goals exact absurd rfl h

end Registers

/-! ### No instruction reads ST (R28) -/

section SoundTimer
variable (i : Instr) (s : State) (b : Byte)

theorem faultOfInstr_setSt : faultOfInstr i (s.setSt b) = faultOfInstr i s := by cases i <;> rfl

/-- With another ST an instruction completes alike but for ST. FX18 writes ST, so the ST left over need not be `b`. -/
theorem completed_setSt : ∃ c, completed i (s.setSt b) = (completed i s).setSt c := by
  cases i with
  | ldStVx x => exact ⟨s.readV x, rfl⟩
  | _ => exact ⟨b, rfl⟩

theorem frame_setSt : Frame [.st] s (s.setSt b) := by
  intro f hf
  cases f <;> simp_all [SameField]

theorem exec_setSt : ∃ c, exec i (s.setSt b) = mapNext (·.setSt c) (exec i s) := by
  rw [exec_eq, exec_eq, faultOfInstr_setSt]
  cases faultOfInstr i s with
  | some f => exact ⟨b, rfl⟩
  | none =>
    obtain ⟨c, hc⟩ := completed_setSt i s b
    exact ⟨c, congrArg Host.Outcome.next hc⟩

end SoundTimer

/-! ### The invariant -/

section Invariant
variable {i : Instr} {s t : State}

/-- The invariant speaks of five fields only. -/
theorem StateInv.of_eq (h : StateInv s) (hmem : t.mem = s.mem) (hparams : t.params = s.params) (hpc : t.pc = s.pc)
    (hstack : t.stack = s.stack) (hfault : t.fault = s.fault) : StateInv t where
  memWf := hmem ▸ h.memWf
  initWf := hparams ▸ h.initWf
  pcLe := hpc ▸ h.pcLe
  stackLe := hstack ▸ h.stackLe
  depthLe := by rw [hparams, hstack]; exact h.depthLe
  faultPc := by rw [hfault, hpc]; exact h.faultPc

/-- Taking a fault records the very pc it leaves (R201). -/
theorem StateInv.takeFault (h : StateInv s) {pc0 : Word} (hpc : pc0.toNat ≤ 0x10FE) (f : Fault) (w : Option Word) :
    StateInv (takeFault f pc0 w s) where
  memWf := h.memWf
  initWf := h.initWf
  pcLe := hpc
  stackLe := h.stackLe
  depthLe := h.depthLe
  faultPc := by rintro r ⟨⟩; rfl

/-- A store that does not fault lies inside the address space, so memory stays canonical. -/
theorem completed_mem_wf (h : Memory.wf s.mem) (hf : faultOfInstr i s = none) : Memory.wf (completed i s).mem := by
  by_cases hmem : (completed i s).mem = s.mem
  · rwa [hmem]
  · obtain ⟨x, rfl⟩ | ⟨x, rfl⟩ := completed_mem_ne hmem
    · have hi : ¬s.i.toNat + 2 ≥ 4096 := by simpa [faultOfInstr] using hf
      exact Memory.writeRange_wf h (by simp only [length_bcdDigits, Config.memSize]; omega)
    · have hi : ¬s.i.toNat + x.val ≥ 4096 := by simpa [faultOfInstr] using hf
      exact Memory.writeRange_wf h (by simp only [length_blockOf, Config.memSize]; omega)

/-- A call pushes pc, which is a fetched word's address plus 2; a return only removes an address (R25). -/
theorem completed_stack_le (h : ∀ a ∈ s.stack, a.toNat ≤ Config.memSize) (hpc : s.pc.toNat ≤ Config.memSize) :
    ∀ a ∈ (completed i s).stack, a.toNat ≤ Config.memSize := by
  by_cases hstack : (completed i s).stack = s.stack
  · rwa [hstack]
  · obtain rfl | ⟨nnn, rfl⟩ := completed_stack_ne hstack
    · exact fun a ha => h a (List.mem_of_mem_dropLast ha)
    · intro a ha
      rcases List.mem_append.1 ha with ha | ha
      · exact h a ha
      · rwa [List.mem_singleton.1 ha]

/-- A call that does not fault finds the stack below its capacity (R27). -/
theorem completed_stack_length_le {c : Nat} (hc : s.params.stackCapacity = some c) (h : s.stack.length ≤ c)
    (hf : faultOfInstr i s = none) : (completed i s).stack.length ≤ c := by
  by_cases hstack : (completed i s).stack = s.stack
  · rwa [hstack]
  · obtain rfl | ⟨nnn, rfl⟩ := completed_stack_ne hstack
    · simp only [completed, State.setPc_stack, State.setStack_stack, List.length_dropLast]; omega
    · have hne : c ≠ s.stack.length := by simpa [faultOfInstr, hc] using hf
      simp only [completed, State.setPc_stack, State.setStack_stack, List.length_append, List.length_singleton]; omega

theorem toNat_add_two {a : Word} (h : a.toNat ≤ Config.memSize) : (a + 2).toNat = a.toNat + 2 := by
  unfold Config.memSize at h; bv_omega

theorem toNat_sub_two {a : Word} (h : 2 ≤ a.toNat) : (a - 2).toNat = a.toNat - 2 := by bv_omega

theorem toNat_addrOperand (nnn : Addr12) : (addrOperand nnn).toNat = nnn.toNat := by
  have := nnn.isLt
  simp [addrOperand]; omega

theorem addrOperand_le (nnn : Addr12) : (addrOperand nnn).toNat ≤ 0xFFF := by
  rw [toNat_addrOperand]; have := nnn.isLt; omega

/-- BNNN reaches the largest pc of all, 0xFFF + 0xFF (R25, R113). -/
theorem addrOperand_add_le (nnn : Addr12) (b : Byte) : (addrOperand nnn + b.setWidth 16).toNat ≤ 0x10FE := by
  have := addrOperand_le nnn
  have := b.isLt
  simp only [BitVec.toNat_add, BitVec.toNat_setWidth]; omega

theorem skipPc_le (c : Bool) (hpc : s.pc.toNat ≤ Config.memSize) : (skipPc c s).toNat ≤ 0x10FE := by
  have h : Config.memSize = 4096 := rfl
  unfold skipPc
  split_ifs
  · rw [toNat_add_two hpc]; omega
  · omega

theorem pc_sub_two_le (h2 : 2 ≤ s.pc.toNat) (hpc : s.pc.toNat ≤ Config.memSize) : (s.pc - 2).toNat ≤ 0x10FE := by
  have h : Config.memSize = 4096 := rfl
  rw [toNat_sub_two h2]; omega

/-- No rule writes a pc above 0x10FE (R25). -/
theorem completed_pc_le (h2 : 2 ≤ s.pc.toNat) (hpc : s.pc.toNat ≤ Config.memSize)
    (hstack : ∀ a ∈ s.stack, a.toNat ≤ Config.memSize) : (completed i s).pc.toNat ≤ 0x10FE := by
  have hsame : s.pc.toNat ≤ 0x10FE := hpc.trans (by decide)
  cases i
  case ret =>
    show (s.stack.getLast?.getD 0).toNat ≤ 0x10FE
    cases ha : s.stack.getLast? with
    | none => simp
    | some a => exact (hstack a (List.mem_of_getLast? ha)).trans (by decide)
  case jp nnn | call nnn => exact (addrOperand_le nnn).trans (by decide)
  case jpV0 nnn => exact addrOperand_add_le nnn _
  case seByte | sneByte | seReg | sneReg | skp | sknp => exact skipPc_le _ hpc
  case waitk x =>
    show (waitPc s).toNat ≤ 0x10FE
    unfold waitPc
    split_ifs
    · exact pc_sub_two_le h2 hpc
    · exact hsame
  all_goals exact hsame

/-- An instruction keeps the invariant when it runs as a cycle runs it: no fault held, pc two past a fetched word. -/
theorem exec_keeps_stateInv (h : StateInv s) (hfault : s.fault = none) (h2 : 2 ≤ s.pc.toNat)
    (hpc : s.pc.toNat ≤ Config.memSize) (e : exec i s = .next t) : StateInv t := by
  obtain ⟨f, -, rfl⟩ | ⟨hf, rfl⟩ := exec_cases e
  · exact h.takeFault (pc_sub_two_le h2 hpc) f _
  · exact {
      memWf := completed_mem_wf h.memWf hf
      initWf := by rw [completed_params]; exact h.initWf
      pcLe := completed_pc_le h2 hpc h.stackLe
      stackLe := completed_stack_le h.stackLe hpc
      depthLe := fun c hc => by
        rw [completed_params] at hc
        exact completed_stack_length_le hc (h.depthLe c hc) hf
      faultPc := by simp [hfault] }

theorem StateInv.advancePc (h : StateInv s) (hfault : s.fault = none) (hpc : s.pc.toNat ≤ Config.memSize) :
    StateInv s.advancePc where
  memWf := h.memWf
  initWf := h.initWf
  pcLe := skipPc_le true hpc
  stackLe := h.stackLe
  depthLe := h.depthLe
  faultPc := by simp [hfault]

theorem cycle_keeps_stateInv (h : StateInv s) (e : cycle s = .next t) : StateInv t := by
  unfold cycle at e
  cases hfault : s.fault with
  | some r =>
    simp only [hfault, Host.Outcome.next.injEq] at e
    exact e ▸ h
  | none =>
    simp only [hfault] at e
    rcases fetch_cases s with ⟨-, hw⟩ | ⟨hpc, hw⟩ <;> simp only [hw] at e
    · obtain rfl := Host.Outcome.next.inj e
      exact h.takeFault h.pcLe _ none
    · have hle : s.pc.toNat ≤ Config.memSize := hpc.trans (by decide)
      have hadv : s.advancePc.pc.toNat = s.pc.toNat + 2 := toNat_add_two hle
      exact exec_keeps_stateInv (h.advancePc hfault hle) hfault (by omega)
        (by unfold Config.memSize; omega) e

/-- A fresh core meets the invariant (R35, R240). -/
theorem launch_stateInv {p : Config.Params} {program : List Byte} (hm : Memory.wf p.initMem)
    (e : launch p program = .ok t) : StateInv t := by
  unfold launch at e
  split_ifs at e with hl
  obtain rfl := Except.ok.inj e
  exact {
    memWf := launchMemory_wf hm hl
    initWf := hm
    pcLe := by simp [Config.programBase]
    stackLe := by simp
    depthLe := by simp
    faultPc := by simp }

theorem resetCore_keeps_stateInv {program : List Byte} (h : StateInv s) (e : resetCore s program = .next t) :
    StateInv t := by
  unfold resetCore at e
  cases hl : launch s.params program with
  | error r => simp [hl] at e
  | ok u =>
    simp only [hl, Host.Outcome.next.injEq] at e
    subst e
    exact (launch_stateInv h.initWf hl).of_eq rfl rfl rfl rfl rfl

/-- Every host operation keeps the invariant (R210). -/
theorem perform_keeps_stateInv {op : HostOp} (h : StateInv s) (e : perform op s = .next t) : StateInv t := by
  cases op
  case cycle => exact cycle_keeps_stateInv h e
  case reset => exact resetCore_keeps_stateInv h e
  all_goals
    obtain rfl := Host.Outcome.next.inj e
    exact h.of_eq rfl rfl rfl rfl rfl

end Invariant

end Sys2Proof.Machine

namespace Sys2Proof.StateFamily

open Sys2Proof.Machine

/-- Settles O6: the host's next operation keeps the invariant, and taking it off the schedule changes no field the
invariant speaks of. -/
theorem stepKeepsInvariant : Obligations.StepKeepsInvariant := by
  intro s t h e
  have hs : StateInv (s.setSchedule s.schedule.issue.2) := h.of_eq rfl rfl rfl rfl rfl
  exact perform_keeps_stateInv hs e

/-- Settles O35: a fault writes no register, and a completed instruction only those of its row. -/
theorem registerWriters : Obligations.RegisterWriters := by
  intro i s t r e h
  obtain ⟨f, -, rfl⟩ | ⟨-, rfl⟩ := exec_cases e
  · exact absurd rfl h
  · exact completed_readV_ne h

/-- Settles O36, field by field. -/
theorem fieldWriters : Obligations.FieldWriters := by
  intro i s t e
  obtain ⟨f, -, rfl⟩ | ⟨-, rfl⟩ := exec_cases e
  · simp [faultState, takeFault]
  · exact ⟨completed_i_ne, completed_stack_ne, completed_dt_ne, completed_st_ne, completed_mem_ne, completed_key i s,
      completed_params i s, completed_schedule i s⟩

/-- Settles O37: an instruction that faults leaves a record, so the one at hand has completed. -/
theorem pcWriters : Obligations.PcWriters := by
  intro i s t _ e hfault h
  obtain ⟨f, -, rfl⟩ | ⟨-, rfl⟩ := exec_cases e
  · simp [faultState, takeFault] at hfault
  · exact completed_pc_ne h

/-- Settles O38: with another ST the outcome is the same state with another ST. -/
theorem soundTimerIsUnread : Obligations.SoundTimerIsUnread := by
  intro i s t b e
  obtain ⟨c, hc⟩ := exec_setSt i s b
  rw [e] at hc
  exact ⟨t.setSt c, hc, frame_setSt t c⟩

/-- Settles O5: memory lists nothing, the stack is empty and no fault is held. -/
theorem resetMeetsInvariant : Obligations.ResetMeetsInvariant where
  memWf := reset_mem_wf
  initWf := reset_mem_wf
  pcLe := by decide
  stackLe := by simp [State.reset]
  depthLe := by simp [State.reset]
  faultPc := by simp [State.reset]

end Sys2Proof.StateFamily
end

section
/-! Family 20_memory. The bytes a canonical memory lists, what FX55 and FX33 leave at each address they write, what a
fetch reads of memory, and what RESET refuses; after them the statements of spec/20_memory.md. -/

namespace Sys2Proof.Machine

/-! ### The canonical form -/

section Canonical
variable {m m' : Memory}

/-- No two entries list the same address, so a read finds the one that lists its address. -/
theorem Memory.read_eq_of_mem {c : Host.Cell} (hm : m.Pairwise (fun c d => c.1 < d.1)) (hc : c ∈ m) :
    Memory.read m c.1 = c.2 := by
  induction m with
  | nil => simp at hc
  | cons e rest ih =>
    obtain ⟨hlt, hrest⟩ := List.pairwise_cons.1 hm
    rcases List.mem_cons.1 hc with rfl | hc
    · simp [Memory.read]
    · simp [Memory.read, (hlt c hc).ne, ih hrest hc]

/-- A canonical memory lists exactly the bytes that differ from what an unlisted address reads as. -/
theorem Memory.wf.mem_iff (hm : Memory.wf m) (c : Host.Cell) :
    c ∈ m ↔ Memory.read m c.1 = c.2 ∧ c.2 ≠ Config.resetByte c.1 := by
  constructor
  · exact fun hc => ⟨Memory.read_eq_of_mem hm.1 hc, (hm.2 c hc).2⟩
  · rintro ⟨hread, hne⟩
    by_contra hc
    refine hne (hread.symm.trans (Memory.read_of_not_listed fun d hd hdc => hc ?_))
    have hdread : Memory.read m c.1 = d.2 := hdc ▸ Memory.read_eq_of_mem hm.1 hd
    rwa [← Prod.ext hdc (hdread.symm.trans hread)]

/-- A canonical memory lists nothing outside the address space. -/
theorem Memory.wf.read_of_le (hm : Memory.wf m) {a : Nat} (ha : Config.memSize ≤ a) :
    Memory.read m a = Config.resetByte a :=
  Memory.read_of_not_listed fun c hc => ((hm.2 c hc).1.trans_le ha).ne

/-- Lists with rising addresses are equal when they have the same entries, and the reads determine the entries. -/
theorem Memory.wf.eq_of_read_eq (hm : Memory.wf m) (hm' : Memory.wf m')
    (h : ∀ a, a < Config.memSize → Memory.read m a = Memory.read m' a) : m = m' := by
  have hread : ∀ a, Memory.read m a = Memory.read m' a := fun a =>
    (lt_or_ge a Config.memSize).elim (h a) fun ha => (hm.read_of_le ha).trans (hm'.read_of_le ha).symm
  have : Std.Irrefl fun c d : Host.Cell => c.1 < d.1 := ⟨fun c => lt_irrefl c.1⟩
  have : Std.Antisymm fun c d : Host.Cell => c.1 < d.1 := ⟨fun _ _ hcd hdc => absurd hcd hdc.asymm⟩
  exact hm.1.eq_of_mem_iff hm'.1 fun c => by rw [hm.mem_iff, hm'.mem_iff, hread]

end Canonical

/-! ### What the stores leave in memory -/

section Stores
variable {x : Reg} {s t : State}

/-- FX55 inside the address space leaves VK at I + K (R154). -/
theorem readByte_of_exec_storeRegs {k : Reg} (hm : Memory.wf s.mem) (hi : s.i.toNat + x.val < 4096) (hk : k ≤ x)
    (e : exec (.storeRegs x) s = .next t) : t.readByte (s.i.toNat + k.val) = s.readV k := by
  obtain ⟨hge, -⟩ | ⟨-, h⟩ := execStoreRegs_cases s x
  · omega
  · obtain rfl := Host.Outcome.next.inj (h.symm.trans e)
    have hlt : k.val < x.val + 1 := Nat.lt_succ_of_le hk
    simp [Memory.read_writeRange hm.1, hlt, getElem_blockOf]

/-- The digits of a byte as numbers, the most significant first (R153). -/
theorem toNat_getElem_bcdDigits (d : Byte) (k : Nat) (h : k < (bcdDigits d).length) :
    (bcdDigits d)[k].toNat = d.toNat / 10 ^ (2 - k) % 10 := by
  have := d.isLt
  rw [length_bcdDigits] at h
  obtain rfl | rfl | rfl : k = 0 ∨ k = 1 ∨ k = 2 := by omega
  all_goals simp [bcdDigits]; omega

/-- FX33 inside the address space leaves the digits of VX at I, I + 1 and I + 2 (R153). -/
theorem toNat_readByte_of_exec_ldB {k : Nat} (hm : Memory.wf s.mem) (hi : s.i.toNat + 2 < 4096) (hk : k < 3)
    (e : exec (.ldB x) s = .next t) :
    (t.readByte (s.i.toNat + k)).toNat = (s.readV x).toNat / 10 ^ (2 - k) % 10 := by
  obtain ⟨hge, -⟩ | ⟨-, h⟩ := execLdB_cases s x
  · omega
  · obtain rfl := Host.Outcome.next.inj (h.symm.trans e)
    simp [Memory.read_writeRange hm.1, hk, toNat_getElem_bcdDigits]

end Stores

/-! ### What a fetch reads -/

section Fetch
variable {s : State}

/-- The word at pc is big-endian (R57). -/
theorem toNat_wordAt (s : State) :
    (wordAt s).toNat = (s.readByte s.pc.toNat).toNat * 256 + (s.readByte (s.pc.toNat + 1)).toNat :=
  toNat_wordOfBytes _ _

theorem fetch_of_le (h : s.pc.toNat ≤ 4094) : fetch s = .ok (wordAt s) := by
  obtain ⟨hlt, -⟩ | ⟨-, hw⟩ := fetch_cases s
  · omega
  · exact hw

theorem fetch_of_lt (h : 4094 < s.pc.toNat) : fetch s = .error (.memOob (max s.pc.toNat 4096) .fetch) := by
  obtain ⟨-, hf⟩ | ⟨hle, -⟩ := fetch_cases s
  · exact hf
  · omega

/-- A cycle of a core that holds no fault takes the fault its fetch raises, with no word (R201). -/
theorem cycle_of_fetch_error {f : Fault} (hfault : s.fault = none) (hf : fetch s = .error f) :
    cycle s = .next (takeFault f s.pc none s) := by
  simp [cycle, hfault, hf]

/-- A fault taken at pc writes the fault record and nothing else (R201). -/
theorem frame_takeFault_pc (f : Fault) (word : Option Word) (s : State) :
    Frame [.fault] s (takeFault f s.pc word s) := by
  intro g hg
  cases g <;> simp_all [SameField, takeFault]

/-- While memory stays as `t` has it, a fetch reads the byte of `t` at `a` as the half of the word that stands there. -/
theorem fetch_reads_byte {t : State} {a n : Nat} (hpc : s.pc.toNat ≤ 4094) (hmem : s.mem = t.mem)
    (hb : (t.readByte a).toNat = n) :
    (s.pc.toNat = a → ∃ w, fetch s = .ok w ∧ w.toNat / 256 = n) ∧
    (s.pc.toNat + 1 = a → ∃ w, fetch s = .ok w ∧ w.toNat % 256 = n) := by
  have hword := toNat_wordAt s
  have hlow := (s.readByte (s.pc.toNat + 1)).isLt
  have hsame : (s.readByte a).toNat = n := by rw [State.readByte, hmem]; exact hb
  constructor
  · rintro rfl
    exact ⟨wordAt s, fetch_of_le hpc, by omega⟩
  · rintro rfl
    exact ⟨wordAt s, fetch_of_le hpc, by omega⟩

end Fetch

/-! ### What RESET refuses -/

/-- RESET either makes a fresh core at the reset vector or refuses a program that does not fit (R67, R240). -/
theorem perform_reset_cases (s : State) (program : List Byte) :
    (program.length ≤ 3584 ∧ ∃ t, perform (.reset program) s = .next t ∧ t.pc = 0x200 ∧ t.fault = none) ∨
    (3584 < program.length ∧ perform (.reset program) s = .refused (.programTooLong program.length)) := by
  have hmax : Config.maxProgram = 3584 := rfl
  simp only [perform, resetCore, launch]
  split_ifs with h
  · exact .inl ⟨hmax ▸ h, _, rfl, rfl, rfl⟩
  · exact .inr ⟨by omega, rfl⟩

end Sys2Proof.Machine

namespace Sys2Proof.MemoryFamily

open Sys2Proof.Machine

/-- Settles O13, by the two things a fetch can do; the cycle takes the fault where it stands. -/
theorem fetchIsBigEndianOrFaults : Obligations.FetchIsBigEndianOrFaults := by
  intro s
  refine ⟨fun h => ⟨wordAt s, fetch_of_le h, toNat_wordAt s⟩, fun h => ?_, fun h hfault => ?_⟩
  · have haddr : (if s.pc.toNat ≥ 4096 then s.pc.toNat else 4096) = max s.pc.toNat 4096 := by
      split_ifs <;> omega
    rw [haddr]
    exact fetch_of_lt h
  · exact ⟨_, cycle_of_fetch_error hfault (fetch_of_lt h), rfl, frame_takeFault_pc _ _ s⟩

/-- Settles O46: the later fetch reads the very memory the store left. -/
theorem storedBytesAreFetched : Obligations.StoredBytesAreFetched := by
  constructor
  · intro x k s t u hm hi hk e hmem hpc
    exact fetch_reads_byte hpc hmem (congrArg BitVec.toNat (readByte_of_exec_storeRegs hm hi hk e))
  · intro x k s t u hm hi hk e hmem hpc
    exact fetch_reads_byte hpc hmem (toNat_readByte_of_exec_ldB hm hi hk e)

/-- Settles O47, from the law of a read after a write. -/
theorem memoryReadsLastWrite : Obligations.MemoryReadsLastWrite := by
  intro m a b hm ha
  refine ⟨Memory.write_wf hm ha b, ?_, fun c hc => ?_⟩
  · rw [Memory.read_write hm.1, if_pos rfl]
  · rw [Memory.read_write hm.1, if_neg hc]

/-- Settles O48: the reads determine which entries a canonical memory lists, and their order is fixed. -/
theorem canonicalMemoryIsUnique : Obligations.CanonicalMemoryIsUnique :=
  fun _ _ hm hm' h => hm.eq_of_read_eq hm' h

/-- Settles O2, by the two things RESET can do. -/
theorem oversizedProgramIsRefused : Obligations.OversizedProgramIsRefused := by
  intro s program
  obtain ⟨hle, t, e, hpc, hfault⟩ | ⟨hlt, e⟩ := perform_reset_cases s program
  · exact ⟨by simp [e, hle], fun _ => ⟨t, e, hpc, hfault⟩⟩
  · exact ⟨by simp [e, hlt], fun hle => by omega⟩

end Sys2Proof.MemoryFamily
end

section
/-! Family 30_encoding. The word an answer of the decoder stands for (`standsFor_decodeWord`), what each row of the opcode
table fixes of a word, the two bytes of a word, and what a step does when the host's next operation is CYCLE; after them
the statements of spec/30_encoding.md. -/

namespace Sys2Proof

/-! ### A word put together again from its fields (R72, R73) -/

section Fields
variable (w : Word)

theorem packA_fields : packA (nibble1 w) (low12 w) = w :=
  BitVec.eq_of_toNat_eq (by rw [toNat_packA, toNat_nibble1, toNat_low12]; omega)
theorem packXNN_fields : packXNN (nibble1 w) (regX w) (lowByte w) = w :=
  BitVec.eq_of_toNat_eq (by rw [toNat_packXNN, toNat_nibble1, val_regX, toNat_lowByte]; omega)
theorem packXYN_fields : packXYN (nibble1 w) (regX w) (regY w) (nibble4 w) = w :=
  BitVec.eq_of_toNat_eq (by rw [toNat_packXYN, toNat_nibble1, val_regX, val_regY, toNat_nibble4]; omega)

end Fields

section KnownFields
variable {w : Word} {op n : Nibble} {nn : Byte}

theorem packA_of_fields (h : nibble1 w = op) : packA op (low12 w) = w := h ▸ packA_fields w
theorem packXNN_of_fields (h : nibble1 w = op) (hn : lowByte w = nn) : packXNN op (regX w) nn = w :=
  h ▸ hn ▸ packXNN_fields w
theorem packXYN_of_fields (h : nibble1 w = op) (hn : nibble4 w = n) : packXYN op (regX w) (regY w) n = w :=
  h ▸ hn ▸ packXYN_fields w

end KnownFields

/-- R79's list in the fields the decoder dispatches on (R75). -/
theorem unrecognizedWord_iff (w : Word) : unrecognizedWord w = true ↔
    (nibble1 w = 0x0#4 ∧ w ≠ 0x00E0#16 ∧ w ≠ 0x00EE#16) ∨
    ((nibble1 w = 0x5#4 ∨ nibble1 w = 0x9#4) ∧ nibble4 w ≠ 0#4) ∨
    (nibble1 w = 0x8#4 ∧ nibble4 w ∈ [0x8#4, 0x9#4, 0xA#4, 0xB#4, 0xC#4, 0xD#4, 0xF#4]) ∨
    (nibble1 w = 0xE#4 ∧ lowByte w ∉ [0x9E#8, 0xA1#8]) ∨
    (nibble1 w = 0xF#4 ∧
      lowByte w ∉ [0x07#8, 0x0A#8, 0x15#8, 0x18#8, 0x1E#8, 0x29#8, 0x33#8, 0x55#8, 0x65#8]) := by
  simp [unrecognizedWord, ← BitVec.toNat_inj, toNat_nibble1, toNat_nibble4, toNat_lowByte, or_assoc, and_assoc]

/-! ### The decoder's answer stands for the word -/

/-- An instruction stands for a word: the word is its encoding, and it is well formed. -/
def StandsFor (i : Instr) (w : Word) : Prop := encode i = w ∧ WellFormed i = true

section Decoder
variable {w : Word}

theorem standsFor_decode0 (h : nibble1 w = 0x0#4) : StandsFor (decode0 w) w := by
  unfold decode0
  split_ifs with hcls hret
  · exact ⟨hcls.symm, rfl⟩
  · exact ⟨hret.symm, rfl⟩
  · exact ⟨rfl, (unrecognizedWord_iff w).2 (.inl ⟨h, hcls, hret⟩)⟩

theorem standsFor_decode8 (h : nibble1 w = 0x8#4) : StandsFor (decode8 w) w := by
  unfold decode8
  split
  case h_10 =>
    have hlt := (nibble4 w).isLt
    simp only [imp_false] at *
    refine ⟨rfl, (unrecognizedWord_iff w).2 (.inr (.inr (.inl ⟨h, ?_⟩)))⟩
    simp [← BitVec.toNat_inj]
    omega
  all_goals exact ⟨packXYN_of_fields h (BitVec.eq_of_toNat_eq ‹_›), rfl⟩

theorem standsFor_decodeE (h : nibble1 w = 0xE#4) : StandsFor (decodeE w) w := by
  unfold decodeE
  split_ifs
  case neg => exact ⟨rfl, (unrecognizedWord_iff w).2 (by simp [*])⟩
  all_goals exact ⟨packXNN_of_fields h ‹_›, rfl⟩

theorem standsFor_decodeF (h : nibble1 w = 0xF#4) : StandsFor (decodeF w) w := by
  unfold decodeF
  split_ifs
  case neg => exact ⟨rfl, (unrecognizedWord_iff w).2 (by simp [*])⟩
  all_goals exact ⟨packXNN_of_fields h ‹_›, rfl⟩

/-- Families 5 and 9 have one instruction each, of last digit 0 (R76, R79). -/
theorem standsFor_of_nibble4 {op : Nibble} (h : nibble1 w = op) (hop : op = 0x5#4 ∨ op = 0x9#4) {i : Instr}
    (hi : nibble4 w = 0#4 → StandsFor i w) : StandsFor (if nibble4 w = 0#4 then i else .unrecognized w) w := by
  split_ifs with hn
  · exact hi hn
  · exact ⟨rfl, (unrecognizedWord_iff w).2 (.inr (.inl ⟨h ▸ hop, hn⟩))⟩

/-- Every word is the encoding of what it decodes to (R73, R80): the first digit tells the family, and within it the
fixed digits the decoder has compared are those the encoder writes. -/
theorem standsFor_decodeWord (w : Word) : StandsFor (decodeWord w) w := by
  unfold decodeWord
  split
  case h_1 h => exact standsFor_decode0 (BitVec.eq_of_toNat_eq h)
  case h_6 h =>
    have h5 : nibble1 w = 0x5#4 := BitVec.eq_of_toNat_eq h
    exact standsFor_of_nibble4 h5 (.inl rfl) fun hn => ⟨packXYN_of_fields h5 hn, rfl⟩
  case h_9 h => exact standsFor_decode8 (BitVec.eq_of_toNat_eq h)
  case h_10 h =>
    have h9 : nibble1 w = 0x9#4 := BitVec.eq_of_toNat_eq h
    exact standsFor_of_nibble4 h9 (.inr rfl) fun hn => ⟨packXYN_of_fields h9 hn, rfl⟩
  case h_14 h => exact ⟨packXYN_of_fields (BitVec.eq_of_toNat_eq h) rfl, rfl⟩
  case h_15 h => exact standsFor_decodeE (BitVec.eq_of_toNat_eq h)
  case h_16 =>
    have hlt := (nibble1 w).isLt
    simp only [imp_false] at *
    exact standsFor_decodeF (BitVec.eq_of_toNat_eq (by simp; omega))
  case h_2 h | h_3 h | h_11 h | h_12 h => exact ⟨packA_of_fields (BitVec.eq_of_toNat_eq h), rfl⟩
  case h_4 h | h_5 h | h_7 h | h_8 h | h_13 h => exact ⟨packXNN_of_fields (BitVec.eq_of_toNat_eq h) rfl, rfl⟩

@[simp] theorem encode_decodeWord (w : Word) : encode (decodeWord w) = w := (standsFor_decodeWord w).1

/-- An unrecognized word is one R79 lists, and is kept. -/
theorem unrecognizedWord_of_decodeWord {w' : Word} (h : decodeWord w = .unrecognized w') :
    w' = w ∧ unrecognizedWord w = true := by
  have hw := standsFor_decodeWord w
  rw [h] at hw
  obtain ⟨rfl, hwf⟩ := hw
  exact ⟨rfl, hwf⟩

end Decoder

/-! ### A word under a row's mask -/

theorem regBits_zero : regBits 0 = 0#4 := rfl

theorem and_F000 (w : Word) : w &&& 0xF000 = packA (nibble1 w) 0#12 :=
  calc w &&& 0xF000
    _ = packA (nibble1 w) (low12 w) &&& packA (BitVec.allOnes 4) 0#12 := by rw [packA_fields]; rfl
    _ = packA (nibble1 w) 0#12 := by
      unfold packA
      rw [BitVec.and_append, BitVec.and_allOnes, BitVec.and_zero]

theorem and_F00F (w : Word) : w &&& 0xF00F = packXYN (nibble1 w) 0 0 (nibble4 w) :=
  calc w &&& 0xF00F
    _ = packXYN (nibble1 w) (regX w) (regY w) (nibble4 w) &&& packXYN (BitVec.allOnes 4) 0 0 (BitVec.allOnes 4) := by
      rw [packXYN_fields]; rfl
    _ = packXYN (nibble1 w) 0 0 (nibble4 w) := by
      unfold packXYN
      rw [regBits_zero]
      iterate 3 rw [BitVec.and_append]
      iterate 2 rw [BitVec.and_allOnes, BitVec.and_zero]

theorem and_F0FF (w : Word) : w &&& 0xF0FF = packXNN (nibble1 w) 0 (lowByte w) :=
  calc w &&& 0xF0FF
    _ = packXNN (nibble1 w) (regX w) (lowByte w) &&& packXNN (BitVec.allOnes 4) 0 (BitVec.allOnes 8) := by
      rw [packXNN_fields]; rfl
    _ = packXNN (nibble1 w) 0 (lowByte w) := by
      unfold packXNN
      rw [regBits_zero]
      iterate 2 rw [BitVec.and_append, BitVec.and_allOnes]
      rw [BitVec.and_zero]

/-! ### The rows of the opcode table, by what they fix of a word (R77, R80) -/

/-- A row that fixes the whole word. -/
def wordRow (v : Word) : OpcodeRow := ⟨0xFFFF, v⟩
/-- A row that fixes the first digit. -/
def digitRow (op : Nibble) : OpcodeRow := ⟨0xF000, packA op 0⟩
/-- A row that fixes the first and the last digit. -/
def digitsRow (op n : Nibble) : OpcodeRow := ⟨0xF00F, packXYN op 0 0 n⟩
/-- A row that fixes the first digit and the low byte. -/
def digitByteRow (op : Nibble) (nn : Byte) : OpcodeRow := ⟨0xF0FF, packXNN op 0 nn⟩

theorem opcodeRows_eq : opcodeRows =
    [wordRow 0x00E0, wordRow 0x00EE, digitRow 1, digitRow 2, digitRow 3, digitRow 4, digitsRow 5 0, digitRow 6,
      digitRow 7, digitsRow 8 0, digitsRow 8 1, digitsRow 8 2, digitsRow 8 3, digitsRow 8 4, digitsRow 8 5,
      digitsRow 8 6, digitsRow 8 7, digitsRow 8 0xE, digitsRow 9 0, digitRow 0xA, digitRow 0xB, digitRow 0xC,
      digitRow 0xD, digitByteRow 0xE 0x9E, digitByteRow 0xE 0xA1, digitByteRow 0xF 0x07, digitByteRow 0xF 0x0A,
      digitByteRow 0xF 0x15, digitByteRow 0xF 0x18, digitByteRow 0xF 0x1E, digitByteRow 0xF 0x29,
      digitByteRow 0xF 0x33, digitByteRow 0xF 0x55, digitByteRow 0xF 0x65] := rfl

section Rows
variable {w : Word}

@[simp] theorem wordRow_selects {v : Word} : (wordRow v).selects w = true ↔ w = v := by
  have hmask : w &&& 0xFFFF = w := BitVec.and_allOnes
  simp only [OpcodeRow.selects, wordRow, hmask, beq_iff_eq]

@[simp] theorem digitRow_selects {op : Nibble} : (digitRow op).selects w = true ↔ nibble1 w = op := by
  simp only [OpcodeRow.selects, digitRow, and_F000, beq_iff_eq]
  exact ⟨fun h => by simpa using congrArg nibble1 h, congrArg (packA · _)⟩

@[simp] theorem digitsRow_selects {op n : Nibble} :
    (digitsRow op n).selects w = true ↔ nibble1 w = op ∧ nibble4 w = n := by
  simp only [OpcodeRow.selects, digitsRow, and_F00F, beq_iff_eq]
  constructor
  · exact fun h => ⟨by simpa using congrArg nibble1 h, by simpa using congrArg nibble4 h⟩
  · rintro ⟨rfl, rfl⟩; rfl

@[simp] theorem digitByteRow_selects {op : Nibble} {nn : Byte} :
    (digitByteRow op nn).selects w = true ↔ nibble1 w = op ∧ lowByte w = nn := by
  simp only [OpcodeRow.selects, digitByteRow, and_F0FF, beq_iff_eq]
  constructor
  · exact fun h => ⟨by simpa using congrArg nibble1 h, by simpa using congrArg lowByte h⟩
  · rintro ⟨rfl, rfl⟩; rfl

/-- An instruction's row selects its encoding (R80). -/
theorem selects_encode {i : Instr} {k : Nat} (hi : rowIndex i = some k) (hk : k < opcodeRows.length) :
    opcodeRows[k].selects (encode i) = true := by
  cases i <;> cases hi <;> simp [opcodeRows_eq, encode]

theorem selects_of_rowIndex_decodeWord {k : Nat} (hi : rowIndex (decodeWord w) = some k)
    (hk : k < opcodeRows.length) : opcodeRows[k].selects w = true := by
  simpa using selects_encode hi hk

/-- Any two rows ask for different values of some bit that both their masks fix. -/
theorem opcodeRows_disjoint : opcodeRows.Pairwise fun r r' => r.value &&& r'.mask ≠ r'.value &&& r.mask := by
  decide

theorem selects_unique {j k : Nat} (hj : j < opcodeRows.length) (hk : k < opcodeRows.length)
    (hsj : opcodeRows[j].selects w = true) (hsk : opcodeRows[k].selects w = true) : j = k := by
  have hagree : opcodeRows[j].value &&& opcodeRows[k].mask = opcodeRows[k].value &&& opcodeRows[j].mask := by
    rw [← eq_of_beq hsj, ← eq_of_beq hsk, BitVec.and_assoc, BitVec.and_assoc, BitVec.and_comm opcodeRows[j].mask]
  rcases lt_trichotomy j k with h | h | h
  · exact absurd hagree (List.pairwise_iff_getElem.1 opcodeRows_disjoint j k hj hk h)
  · exact h
  · exact absurd hagree.symm (List.pairwise_iff_getElem.1 opcodeRows_disjoint k j hk hj h)

/-- No row selects a word R79 lists: within the family of its first digit, the list leaves out what the rows fix. -/
theorem not_unrecognizedWord_of_selects {r : OpcodeRow} (hr : r ∈ opcodeRows) (h : r.selects w = true) :
    ¬unrecognizedWord w = true := by
  revert r
  simp only [opcodeRows_eq, List.forall_mem_cons, wordRow_selects, digitRow_selects, digitsRow_selects,
    digitByteRow_selects]
  refine ⟨?_, ?_, ?_⟩
  · rintro rfl; decide
  · rintro rfl; decide
  · simp +contextual [unrecognizedWord_iff]

/-! ### From an instruction to its word and back -/

theorem rowIndex_lt {i : Instr} {k : Nat} (h : rowIndex i = some k) : k < opcodeRows.length := by
  cases i <;> cases h <;> decide

/-- Only the catch-all row is none of the 34. -/
theorem exists_eq_unrecognized {i : Instr} (h : rowIndex i = none) : ∃ w, i = .unrecognized w := by
  cases i
  case unrecognized w => exact ⟨w, rfl⟩
  all_goals cases h

/-- R79's list is the words that select none of the 34 rows. -/
theorem rowIndex_decodeWord_eq_none_iff : rowIndex (decodeWord w) = none ↔ unrecognizedWord w = true := by
  constructor
  · intro hi
    obtain ⟨w', hw'⟩ := exists_eq_unrecognized hi
    exact (unrecognizedWord_of_decodeWord hw').2
  · intro h
    by_contra hi
    obtain ⟨k, hi⟩ := Option.ne_none_iff_exists'.1 hi
    have hk := rowIndex_lt hi
    exact not_unrecognizedWord_of_selects (List.getElem_mem hk) (selects_of_rowIndex_decodeWord hi hk) h

theorem decodeWord_of_unrecognizedWord (h : unrecognizedWord w = true) : decodeWord w = .unrecognized w := by
  obtain ⟨w', hw'⟩ := exists_eq_unrecognized (rowIndex_decodeWord_eq_none_iff.2 h)
  rw [hw', (unrecognizedWord_of_decodeWord hw').1]

end Rows

/-- The fixed digits of an encoding lead the decoder to the instruction's own case, where the fields read back are the
operands. -/
theorem decodeWord_encode {i : Instr} (h : WellFormed i = true) : decodeWord (encode i) = i := by
  cases i
  case unrecognized w => exact decodeWord_of_unrecognizedWord h
  case cls | ret => rfl
  all_goals simp [encode, decodeWord, decode8, decodeE, decodeF]

/-! ### A word as two bytes (R57) -/

section Bytes
variable (w : Word)

theorem toNat_highByte : (w.extractLsb' 8 8).toNat = w.toNat / 0x100 := by
  have := w.isLt
  simp [Nat.shiftRight_eq_div_pow]; omega

theorem wordOfBytes_bytes : wordOfBytes (w.extractLsb' 8 8) (lowByte w) = w :=
  BitVec.eq_of_toNat_eq (by rw [toNat_wordOfBytes, toNat_highByte, toNat_lowByte]; omega)

theorem tableBytes_toNat : tableBytes 16 w.toNat = [w.extractLsb' 8 8, lowByte w] := by
  have hlt : w.toNat < 2 ^ min 16 16 := w.isLt
  have hhigh : BitVec.ofNat 8 (w.toNat / 256) = w.extractLsb' 8 8 :=
    BitVec.eq_of_toNat_eq (by rw [toNat_highByte, BitVec.toNat_ofNat]; omega)
  have hlow : BitVec.ofNat 8 w.toNat = lowByte w :=
    BitVec.eq_of_toNat_eq (by rw [toNat_lowByte, BitVec.toNat_ofNat])
  rw [tableBytes, Nat.mod_eq_of_lt hlt, hhigh, hlow]

theorem decodeTableWord_toNat : decodeTableWord 16 w.toNat = some (decodeWord w) := by
  rw [decodeTableWord, tableBytes_toNat, decodeBytes, wordOfBytes_bytes]

end Bytes

end Sys2Proof

namespace Sys2Proof.Machine

/-! ### A step when the host's next operation is CYCLE (R70) -/

section Cycle
variable {s : State}

theorem step_of_issue_cycle (h : s.schedule.issue.1 = .cycle) : step s = cycle (s.setSchedule s.schedule.issue.2) := by
  rw [step, nextOperation, h, perform]

theorem cycle_of_fault {r : FaultRecord} (h : s.fault = some r) : cycle s = .next s := by
  simp [cycle, h]

/-- A cycle of a core that holds no fault runs the word at pc, with pc past it (R70). -/
theorem cycle_of_le (hfault : s.fault = none) (h : s.pc.toNat ≤ 4094) :
    cycle s = exec (decodeWord (wordAt s)) s.advancePc := by
  simp [cycle, hfault, fetch_of_le h]

theorem step_eq_exec (hop : s.schedule.issue.1 = .cycle) (hfault : s.fault = none) (h : s.pc.toNat ≤ 4094) :
    step s = exec (decodeWord (wordAt s)) ((s.setSchedule s.schedule.issue.2).setPc (s.pc + 2)) := by
  rw [step_of_issue_cycle hop]
  exact cycle_of_le hfault h

end Cycle

/-! ### A placed word (log entry 9) -/

section Placed
variable (s : State) (w : Word)

theorem fetchAddress_le : (fetchAddress s).toNat ≤ 4094 := by
  unfold fetchAddress Config.memSize
  split_ifs with h
  · omega
  · decide

theorem issue_withFetchWord : (s.withFetchWord 16 w.toNat).schedule.issue = (.cycle, s.schedule) := by
  simp only [State.withFetchWord, placeFetchWord]
  split_ifs with h
  · rw [h, issue_cycles]
  · rw [issue_after_cons, after_nil]

/-- The state a placed word is executed in: pc past it, the host's schedule as before it was placed. -/
def placedState : State :=
  ((s.withFetchWord 16 w.toNat).setSchedule s.schedule).setPc (fetchAddress s + 2)

theorem frame_placedState : Frame [.pc, .mem, .fault] s (placedState s w) := by
  intro f hf
  cases f
  case pc | mem | fault => simp at hf
  case v | key => exact fun _ => rfl
  case fb => exact fun _ _ => rfl
  all_goals rfl

section CanonicalMemory
variable {s} (hm : Memory.wf s.mem)
include hm

theorem readByte_withFetchWord (a : Nat) : (s.withFetchWord 16 w.toNat).readByte a =
    if a = (fetchAddress s).toNat then w.extractLsb' 8 8
    else if a = (fetchAddress s).toNat + 1 then lowByte w else s.readByte a := by
  simp only [State.readByte, State.withFetchWord, placeFetchWord, tableBytes_toNat, Memory.writeRange]
  rw [Memory.read_write (Memory.write_pairwise hm.1 _ _), Memory.read_write hm.1]
  by_cases ha : a = (fetchAddress s).toNat <;> simp [ha]

theorem wordAt_withFetchWord : wordAt (s.withFetchWord 16 w.toNat) = w := by
  have hpc : (s.withFetchWord 16 w.toNat).pc = fetchAddress s := rfl
  rw [wordAt, hpc, readByte_withFetchWord w hm, readByte_withFetchWord w hm, if_pos rfl, if_neg (by omega), if_pos rfl,
    wordOfBytes_bytes]

theorem step_withFetchWord : step (s.withFetchWord 16 w.toNat) = exec (decodeWord w) (placedState s w) := by
  have h := step_eq_exec (s := s.withFetchWord 16 w.toNat) (by rw [issue_withFetchWord]) rfl (fetchAddress_le s)
  rwa [wordAt_withFetchWord w hm, issue_withFetchWord] at h

end CanonicalMemory

end Placed

end Sys2Proof.Machine

namespace Sys2Proof.EncodingFamily

open Sys2Proof.Machine

/-- Settles O7, constructor by constructor; an unrecognized word is left to the catch-all row. -/
theorem decodeOfEncode : Obligations.DecodeOfEncode := fun _ h => decodeWord_encode h

/-- Settles O8: every answer of the decoder stands for the word. -/
theorem encodeOfDecode : Obligations.EncodeOfDecode := standsFor_decodeWord

/-- Settles O9: the row of the decoded instruction selects the word, no other row does, and none where there is none. -/
theorem uniqueRowSelects : Obligations.UniqueRowSelects := by
  refine ⟨rfl, fun w k hk => ⟨fun hs => ?_, fun hi => selects_of_rowIndex_decodeWord hi hk⟩⟩
  cases hi : rowIndex (decodeWord w) with
  | none =>
    have hw := rowIndex_decodeWord_eq_none_iff.1 hi
    exact absurd hw (not_unrecognizedWord_of_selects (List.getElem_mem hk) hs)
  | some j =>
    have hj := rowIndex_lt hi
    rw [selects_unique hj hk (selects_of_rowIndex_decodeWord hi hj) hs]

/-- Settles O10, from the two directions of the decoder on R79's list. -/
theorem unrecognizedWordIsNoOp : Obligations.UnrecognizedWordIsNoOp := by
  intro w
  refine ⟨⟨decodeWord_of_unrecognizedWord, fun h => (unrecognizedWord_of_decodeWord h).2⟩,
    fun w' h => (unrecognizedWord_of_decodeWord h).1, fun s => ⟨s, rfl, fun f _ => ?_⟩⟩
  cases f <;> simp [SameField]

/-- Settles O14: the step fetches back the two bytes that were placed. -/
theorem placedWordRunsNext : Obligations.PlacedWordRunsNext := by
  intro s w hm
  have hread : ∀ a, (placedState s w).readByte a = _ := readByte_withFetchWord w hm
  refine ⟨placedState s w, step_withFetchWord w hm, decodeTableWord_toNat w, rfl, rfl, frame_placedState s w,
    fun a ha => ?_, ?_, ?_⟩
  · rw [hread, if_neg (by omega), if_neg (by omega)]
  · rw [hread, if_pos rfl, toNat_highByte]
  · rw [hread, if_neg (by omega), if_pos rfl, toNat_lowByte]

/-- Settles O11, by running the decoder on each pair of bytes. -/
theorem sampleWordsDecode : Obligations.SampleWordsDecode := ⟨rfl, rfl, rfl, rfl, rfl, rfl⟩

/-- Settles O12, by the two things a cycle can do where a word can be fetched. -/
theorem stepRunsDecodedInstruction : Obligations.StepRunsDecodedInstruction := by
  refine ⟨fun s i hfault hpc hi => ?_, fun s r hfault hop => ?_⟩
  · obtain rfl : decodeWord (wordAt s) = i := by simpa [decodeBytes, wordAt] using hi
    have hstep hop := step_eq_exec (s := s) hop hfault hpc
    refine ⟨fun hs => ?_, hstep⟩
    rw [hstep (by rw [hs, issue_cycles]), hs, issue_cycles, ← hs]
    rfl
  · rw [step_of_issue_cycle hop]
    exact cycle_of_fault hfault

end Sys2Proof.EncodingFamily
end

section
/-! Family 40_display. What a drawn sprite leaves (`exec_drw_of_le`, stated with `Drawn`), that flipping the same pixels a
second time undoes the first, and which instructions write and read the framebuffer; after them the statements of
spec/40_display.md. -/

namespace Sys2Proof.Machine

/-! ### The word of an instruction, as a number -/

/-- A well-formed instruction stands for its number, since decoding gives it back (R73). -/
theorem encodedAs_of_toNat_encode {i : Instr} {n : Nat} (hi : WellFormed i = true) (hn : (encode i).toNat = n) :
    EncodedAs i n := by
  refine ⟨?_, hn⟩
  rw [← hn, BitVec.ofNat_toNat, BitVec.setWidth_eq, decodeWord_encode hi]

/-! ### Flipping the same pixels twice (R103) -/

section Flips
variable {P : Nat → Nat → Prop} {f : Config.Framebuffer} {b b' : Blit}

theorem Flips.getPixel_twice (h : Flips P ⟨f, false⟩ b) (h' : Flips P ⟨b.fb, false⟩ b') (x y : Nat) :
    getPixel b'.fb x y = getPixel f x y := by
  by_cases hp : P x y
  · rw [h'.flipped x y hp, h.flipped x y hp, Bool.not_not]
  · rw [h'.kept x y hp, h.kept x y hp]

theorem Flips.congr {Q : Nat → Nat → Prop} (h : Flips P b b') (hQ : ∀ x y, Q x y ↔ P x y) : Flips Q b b' := by
  have : Q = P := funext₂ fun x y => propext (hQ x y)
  rwa [this]

/-- A drawing that starts with no collision reports one exactly when it flips a lit pixel. -/
theorem Flips.hit_iff (h : Flips P ⟨f, false⟩ b) : b.hit = true ↔ ∃ x y, P x y ∧ getPixel f x y = true := by
  simpa using h.hit

/-- Where the first drawing met no lit pixel, it lit every pixel it drew, so the second one meets them. -/
theorem Flips.hit_twice (h : Flips P ⟨f, false⟩ b) (h' : Flips P ⟨b.fb, false⟩ b') (hb : b.hit = false)
    (hP : ∃ x y, P x y) : b'.hit = true := by
  obtain ⟨x, y, hp⟩ := hP
  have hdark : getPixel f x y = false := by
    by_contra hl
    have hhit := h.hit_iff.2 ⟨x, y, hp, by simpa using hl⟩
    simp [hb] at hhit
  exact h'.hit_iff.2 ⟨x, y, hp, by rw [h.flipped x y hp, hdark]; rfl⟩

end Flips

@[simp] theorem flagByte_eq_zero {c : Bool} : flagByte c = 0 ↔ c = false := by cases c <;> decide

/-! ### What DXYN does (R101 to R104) -/

section Draw
variable {x y : Reg} {n : Nibble} {s : State}

/-- The pixels DXYN flips depend on its origin, on I and on memory, so an earlier draw leaves them unless VF holds the
origin. -/
theorem drawn_setFb_setV (hx : x ≠ VF) (hy : y ≠ VF) (f : Config.Framebuffer) (c : Byte) :
    Drawn ((s.setFb f).setV VF c) x y n = Drawn s x y n := by
  funext px py
  simp [Drawn, State.setV_readV_ne, hx, hy]

/-- The rows of the sprite are the bytes DXYN reads from I on (R102). -/
theorem drawn_iff {px py : Nat} : Drawn s x y n px py ↔
    ∃ r k, ∃ h : r < (Memory.readRange s.mem s.i.toNat n.toNat).length, k < 8 ∧ px = (s.readV x).toNat % 64 + k ∧
      py = (s.readV y).toNat % 32 + r ∧ px < 64 ∧ py < 32 ∧
      spriteBit (Memory.readRange s.mem s.i.toNat n.toNat)[r] k = true := by
  simp only [Drawn, Memory.length_readRange, Memory.getElem_readRange, spriteBit, State.readByte, exists_prop]

/-- With its sprite in memory, DXYN flips the drawn pixels and sets VF to the collision (R101, R103). -/
theorem exec_drw_of_le (h : n.toNat = 0 ∨ s.i.toNat + n.toNat ≤ 4096) :
    ∃ b : Blit, exec (.drw x y n) s = .next ((s.setFb b.fb).setV VF (flagByte b.hit)) ∧
      Flips (Drawn s x y n) ⟨s.fb, false⟩ b := by
  obtain ⟨b, hb, hflips⟩ := drawSprite_flips s x y (Memory.readRange s.mem s.i.toNat n.toNat)
  have e : exec (.drw x y n) s = .next (drawSprite s x y (Memory.readRange s.mem s.i.toNat n.toNat)) :=
    (execDrw_cases s x y n).elim (fun hf => absurd hf.1 (by omega)) (·.2)
  exact ⟨b, e.trans (congrArg _ hb), hflips.congr fun _ _ => drawn_iff⟩

/-- With a byte of its sprite out of range, DXYN takes the fault of R60. -/
theorem exec_drw_of_lt (hn : n.toNat ≠ 0) (h : 4096 < s.i.toNat + n.toNat) :
    exec (.drw x y n) s = .next (faultState s (.drw x y n) (.memOob (max s.i.toNat 4096) .read)) :=
  (execDrw_cases s x y n).elim (·.2) fun hc => absurd hc.1 (by omega)

end Draw

/-! ### Who writes and who reads the framebuffer (R106) -/

section FramebufferAccess
variable {i : Instr} (s : State) (f : Config.Framebuffer)

theorem frame_setFb : Frame [.fb] s (s.setFb f) := by
  intro g hg
  cases g <;> simp_all [SameField]

/-- A register write beside a framebuffer write changes nothing else. -/
theorem frame_setFb_setV (r : Reg) (b : Byte) : Frame [.v, .fb] s ((s.setFb f).setV r b) := by
  intro g hg
  cases g <;> simp_all [SameField]

/-- The writers of the framebuffer. -/
theorem completed_fb_ne {s : State} (h : (completed i s).fb ≠ s.fb) : i = .cls ∨ ∃ x y n, i = .drw x y n := by
  cases i with
  | cls => exact .inl rfl
  | drw x y n => exact .inr ⟨x, y, n, rfl⟩
  | _ => exact absurd rfl h

theorem faultOfInstr_setFb (i : Instr) : faultOfInstr i (s.setFb f) = faultOfInstr i s := by cases i <;> rfl

/-- With other pixels an instruction but DXYN completes alike but for the pixels. 00E0 writes them, so those left over need
not be `f`. -/
theorem completed_setFb (hi : ∀ x y n, i ≠ .drw x y n) :
    ∃ g, completed i (s.setFb f) = (completed i s).setFb g := by
  cases i with
  | cls => exact ⟨Config.blankFb, rfl⟩
  | drw x y n => exact absurd rfl (hi x y n)
  | _ => exact ⟨f, rfl⟩

theorem exec_setFb (hi : ∀ x y n, i ≠ .drw x y n) : ∃ g, exec i (s.setFb f) = mapNext (·.setFb g) (exec i s) := by
  rw [exec_eq, exec_eq, faultOfInstr_setFb]
  cases faultOfInstr i s with
  | some c => exact ⟨f, rfl⟩
  | none =>
    obtain ⟨g, hg⟩ := completed_setFb s f hi
    exact ⟨g, congrArg Host.Outcome.next hg⟩

end FramebufferAccess

end Sys2Proof.Machine

namespace Sys2Proof.DisplayFamily

open Sys2Proof.Machine

/-- Settles O19, by where the sprite lies: in memory its pixels are flipped, past the end the fault is taken. -/
theorem drawFlipsSpritePixels : Obligations.DrawFlipsSpritePixels := by
  refine fun x y n s => ⟨encodedAs_of_toNat_encode rfl (toNat_packXYN ..), fun h => ?_, fun hn h => ?_⟩
  · obtain ⟨b, e, hb⟩ := exec_drw_of_le (x := x) (y := y) h
    refine ⟨_, e, hb.flipped, hb.kept, fun hlit => ?_, fun hdark => ?_, fun r hr => ?_, frame_setFb_setV s _ _ _⟩
    · rw [State.setV_readV_self, hb.hit_iff.2 hlit]; rfl
    · rw [State.setV_readV_self, flagByte_eq_zero]
      exact Bool.eq_false_iff.2 (mt hb.hit_iff.1 hdark)
    · exact State.setV_readV_ne _ _ (by simpa using hr)
  · exact ⟨_, exec_drw_of_lt hn h, takeFault_faulted ..⟩

/-- Settles O20: an origin outside VF, I and memory are as before, so the second draw flips the same pixels. -/
theorem drawingTwiceRestores : Obligations.DrawingTwiceRestores := by
  intro x y n s t hx hy h e
  obtain ⟨b, e₁, hb⟩ := exec_drw_of_le (x := x) (y := y) (.inr h)
  obtain rfl : t = (s.setFb b.fb).setV VF (flagByte b.hit) := by simpa [e] using e₁
  have ht : ((s.setFb b.fb).setV VF (flagByte b.hit)).i.toNat + n.toNat ≤ 4096 := h
  obtain ⟨b', e₂, hb'⟩ := exec_drw_of_le (x := x) (y := y) (.inr ht)
  rw [drawn_setFb_setV hx hy] at hb'
  refine ⟨_, e₂, hb.getPixel_twice hb', fun hVF hdrawn => ?_⟩
  rw [State.setV_readV_self, flagByte_eq_zero] at hVF
  rw [State.setV_readV_self, hb.hit_twice hb' hVF hdrawn]
  rfl

/-- Settles O21: a fault leaves the pixels, and with other pixels the outcome is the same state with other pixels. -/
theorem framebufferWriters : Obligations.FramebufferWriters := by
  refine ⟨fun i s t e ⟨x, y, h⟩ => ?_, fun i s t f hi e => ?_⟩
  · obtain ⟨c, -, rfl⟩ | ⟨-, rfl⟩ := exec_cases e
    · exact absurd rfl h
    · exact completed_fb_ne fun hfb => h (congrArg (getPixel · x y) hfb)
  · obtain ⟨g, hg⟩ := exec_setFb s f hi
    rw [e] at hg
    exact ⟨t.setFb g, hg, frame_setFb t g⟩

/-- Settles O18: the framebuffer is replaced by the blank one. -/
theorem clearScreen : Obligations.ClearScreen :=
  ⟨encodedAs_of_toNat_encode rfl rfl, fun s => ⟨_, rfl, getPixel_blank, frame_setFb s Config.blankFb⟩⟩

end Sys2Proof.DisplayFamily
end

section
/-! Family 41_control_transfer. What a return and a call do, by the state of the stack (`exec_ret_of_append`,
`exec_call_of_ne` and their faults), and that the sum of BNNN fits in 16 bits; after them the statements of
spec/41_control_transfer.md. -/

namespace Sys2Proof.Machine

theorem frame_setPc (s : State) (a : Word) : Frame [.pc] s (s.setPc a) := by
  intro g hg
  cases g <;> simp_all [SameField]

theorem frame_setStack_setPc (s : State) (k : List Word) (a : Word) :
    Frame [.pc, .stack] s ((s.setStack k).setPc a) := by
  intro g hg
  cases g <;> simp_all [SameField]

/-- The sum BNNN computes needs no more than 16 bits (R113). -/
theorem toNat_addrOperand_add (nnn : Addr12) (b : Byte) :
    (addrOperand nnn + b.setWidth 16).toNat = nnn.toNat + b.toNat := by
  have hnnn := nnn.isLt
  have hb := b.isLt
  rw [BitVec.toNat_add, toNat_addrOperand, BitVec.toNat_setWidth]
  omega

section Stack
variable {s t : State} {nnn : Addr12}

/-- 00EE on a stack that is not empty completes (R110). -/
theorem exec_ret_of_append {k : List Word} {a : Word} (h : s.stack = k ++ [a]) :
    exec .ret s = .next ((s.setStack k).setPc a) := by
  obtain ⟨hnil, -⟩ | ⟨k', a', h', e⟩ := execRet_cases s
  · simp [hnil] at h
  · obtain ⟨rfl, rfl⟩ : k = k' ∧ a = a' := by simpa [h] using h'
    exact e

/-- 00EE on an empty stack takes the fault of R110. -/
theorem exec_ret_of_nil (h : s.stack = []) : exec .ret s = .next (faultState s .ret .stackUnderflow) := by
  obtain ⟨-, e⟩ | ⟨k, a, h', -⟩ := execRet_cases s
  · exact e
  · simp [h] at h'

/-- 2NNN with room on the stack completes (R112). -/
theorem exec_call_of_ne (h : s.params.stackCapacity ≠ some s.stack.length) :
    exec (.call nnn) s = .next ((s.setStack (s.stack ++ [s.pc])).setPc (addrOperand nnn)) :=
  (execCall_cases s nnn).elim (fun hf => absurd hf.1 h) (·.2)

/-- 2NNN on a full stack takes the fault of R112. -/
theorem exec_call_of_eq (h : s.params.stackCapacity = some s.stack.length) :
    exec (.call nnn) s = .next (faultState s (.call nnn) (.stackOverflow s.stack.length)) :=
  (execCall_cases s nnn).elim (·.2) fun hc => absurd h hc.1

/-- A call that leaves no fault record has pushed the address of the instruction after it (R112). -/
theorem stack_of_exec_call (e : exec (.call nnn) s = .next t) (hfault : t.fault = none) :
    t.stack = s.stack ++ [s.pc] := by
  obtain ⟨f, -, rfl⟩ | ⟨-, rfl⟩ := exec_cases e
  · cases hfault
  · rfl

end Stack

end Sys2Proof.Machine

namespace Sys2Proof.ControlFamily

open Sys2Proof.Machine

/-- Settles O25: the call pushed pc, and the return pops what the call pushed. -/
theorem returnAfterCall : Obligations.ReturnAfterCall := by
  intro nnn s t t' _ e hfault hstack
  exact ⟨_, exec_ret_of_append (hstack.trans (stack_of_exec_call e hfault)), rfl, rfl⟩

/-- Settles O22, by whether the stack has a last address. -/
theorem returnPopsStack : Obligations.ReturnPopsStack := by
  refine ⟨encodedAs_of_toNat_encode rfl rfl, fun s k a h => ?_, fun s h => ?_⟩
  · exact ⟨_, exec_ret_of_append h, rfl, rfl, frame_setStack_setPc s k a⟩
  · exact ⟨_, exec_ret_of_nil h, takeFault_faulted ..⟩

/-- Settles O23: both are one write of pc, and BNNN's sum fits in 16 bits. -/
theorem jumpsSetPc : Obligations.JumpsSetPc := by
  refine fun nnn s => ⟨encodedAs_of_toNat_encode rfl (toNat_packA ..),
    encodedAs_of_toNat_encode rfl (toNat_packA ..), ?_, ?_⟩
  · exact ⟨_, rfl, toNat_addrOperand nnn, frame_setPc s _⟩
  · exact ⟨_, rfl, toNat_addrOperand_add nnn _, frame_setPc s _⟩

/-- Settles O24, by whether a bounded capacity is reached. -/
theorem callPushesPc : Obligations.CallPushesPc := by
  refine fun nnn s => ⟨encodedAs_of_toNat_encode rfl (toNat_packA ..), fun h => ?_, fun h => ?_⟩
  · exact ⟨_, exec_call_of_ne h, rfl, toNat_addrOperand nnn, frame_setStack_setPc s _ _⟩
  · exact ⟨_, exec_call_of_eq h, takeFault_faulted ..⟩

end Sys2Proof.ControlFamily
end

section
/-! Family 42_skips. What a conditional skip leaves, by its condition (`exec_skipIf_pc`); after it the statements
of spec/42_skips.md. -/

namespace Sys2Proof.Machine

section Skip
variable {i : Instr} {c : Bool} {s : State}

/-- An instruction that is a skip on `c` moves pc past the next word where `P` makes `c` true, leaves pc where `Q` makes it
false, and writes nothing else (R120). -/
theorem exec_skipIf_pc {P Q : Prop} (e : exec i s = .next (skipIf c s)) (hP : P → c = true) (hQ : Q → c = false) :
    ∃ t, exec i s = .next t ∧ (P → t.pc = s.pc + 2) ∧ (Q → t.pc = s.pc) ∧ Frame [.pc] s t := by
  rw [skipIf_eq_setPc] at e
  refine ⟨_, e, fun h => ?_, fun h => ?_, frame_setPc s _⟩
  · rw [hP h]; rfl
  · rw [hQ h]; rfl

end Skip

end Sys2Proof.Machine

namespace Sys2Proof.SkipFamily

open Sys2Proof.Machine

/-- Settles O26: both are a skip, on the equality of VX and NN and on its negation. -/
theorem skipsOnImmediate : Obligations.SkipsOnImmediate := by
  refine fun x nn s => ⟨encodedAs_of_toNat_encode rfl (toNat_packXNN ..),
    encodedAs_of_toNat_encode rfl (toNat_packXNN ..), ?_, ?_⟩
  · exact exec_skipIf_pc rfl beq_iff_eq.2 beq_eq_false_iff_ne.2
  · exact exec_skipIf_pc rfl bne_iff_ne.2 bne_eq_false_iff_eq.2

/-- Settles O27: both are a skip, on the equality of VX and VY and on its negation. -/
theorem skipsOnRegisters : Obligations.SkipsOnRegisters := by
  refine fun x y s => ⟨encodedAs_of_toNat_encode rfl (toNat_packXYN ..),
    encodedAs_of_toNat_encode rfl (toNat_packXYN ..), ?_, ?_⟩
  · exact exec_skipIf_pc rfl beq_iff_eq.2 beq_eq_false_iff_ne.2
  · exact exec_skipIf_pc rfl bne_iff_ne.2 bne_eq_false_iff_eq.2

end Sys2Proof.SkipFamily
end

section
/-! Family 43_alu. A result and a flag as numbers, and what an instruction leaves that writes one register
(`frame_setV`) or VF and then its destination (`exec_writeFlagThen`), by whether the destination is VF
(`exec_result_VF`, `exec_flag_VF`); after them the statements of spec/43_alu.md. -/

namespace Sys2Proof

/-- The number of an 8XYN word, with the digits of its pattern, 8 and N, in one constant (R75, R76). -/
theorem toNat_packXYN_pattern (op n : Nibble) (x y : Reg) :
    (packXYN op x y n).toNat = (op.toNat * 0x1000 + n.toNat) + x.val * 0x100 + y.val * 0x10 := by
  rw [toNat_packXYN]; omega

end Sys2Proof

namespace Sys2Proof.Machine

/-! ### Results and flags as numbers -/

section Numbers
variable (a b : Byte)

/-- The difference of two bytes wraps modulo 256 (R137). -/
theorem toNat_byte_sub : (a - b).toNat = (a.toNat + 256 - b.toNat) % 256 := by
  have hb := b.isLt
  rw [BitVec.toNat_sub]
  omega

/-- A byte shifted right by one is halved (R138). -/
theorem toNat_byte_shiftRight_one : (a >>> 1).toNat = a.toNat / 2 := by
  rw [BitVec.toNat_ushiftRight, Nat.shiftRight_one]

/-- A byte shifted left by one is doubled modulo 256 (R140). -/
theorem toNat_byte_shiftLeft_one : (a <<< 1).toNat = a.toNat * 2 % 256 := by
  rw [BitVec.toNat_shiftLeft, Nat.shiftLeft_eq, pow_one]

theorem flagByte_decide (p : Prop) [Decidable p] : flagByte (decide p) = if p then 1 else 0 := by
  simp only [flagByte, decide_eq_true_eq]

theorem toNat_flagByte (c : Bool) : (flagByte c).toNat = c.toNat := by cases c <;> rfl

theorem toNat_flagByte_decide (p : Prop) [Decidable p] : (flagByte (decide p)).toNat = if p then 1 else 0 := by
  rw [flagByte_decide, apply_ite BitVec.toNat]; rfl

/-- The flag of a right shift is the bit of weight 1 (R138). -/
theorem toNat_flagByte_shiftedOutRight : (flagByte (shiftedOutRight a)).toNat = a.toNat % 2 := by
  rw [toNat_flagByte, shiftedOutRight, BitVec.getLsbD, Nat.toNat_testBit, pow_zero, Nat.div_one]

/-- The flag of a left shift is the bit of weight 128 (R140). -/
theorem toNat_flagByte_shiftedOutLeft : (flagByte (shiftedOutLeft a)).toNat = a.toNat / 128 := by
  have ha := a.isLt
  rw [toNat_flagByte, shiftedOutLeft, BitVec.getLsbD, Nat.toNat_testBit]
  omega

end Numbers

/-! ### One register write -/

section OneWrite
variable (s : State) (x : Reg) (b : Byte)

theorem frame_setV : Frame [.v] s (s.setV x b) := by
  intro g hg
  cases g <;> simp_all [SameField]

theorem frameV_setV : FrameV [x] s (s.setV x b) :=
  fun _ hq => State.setV_readV_ne s b (List.ne_of_not_mem_cons hq)

end OneWrite

/-! ### The flag, then the result (R9) -/

section FlagThenResult
variable (s : State) (c : Bool) {r : Reg} (b : Byte)

@[simp] theorem writeFlagThen_readV_self (r : Reg) : (writeFlagThen s c r b).readV r = b :=
  State.setV_readV_self ..

/-- A result written to another register leaves the flag in VF. -/
theorem writeFlagThen_readV_VF (hr : r ≠ VF) : (writeFlagThen s c r b).readV VF = flagByte c :=
  (State.setV_readV_ne _ b hr.symm).trans (State.setV_readV_self ..)

theorem frame_writeFlagThen (r : Reg) : Frame [.v] s (writeFlagThen s c r b) := by
  intro g hg
  cases g <;> simp_all [SameField, writeFlagThen]

theorem frameV_writeFlagThen (r : Reg) : FrameV [r, VF] s (writeFlagThen s c r b) := by
  intro q hq
  by_contra h
  exact hq (by simpa using writeFlagThen_readV_ne h)

variable {s c b} {i : Instr}

/-- A flag writer leaves its result in the destination, its flag in VF unless the result is written over it, and all else
as it was (R9); `P` and `Q` say what is to be known of result and flag. -/
theorem exec_writeFlagThen {P Q : Byte → Prop} (e : exec i s = .next (writeFlagThen s c r b)) (hb : P b)
    (hc : Q (flagByte c)) : ∃ t, exec i s = .next t ∧ P (t.readV r) ∧ (r ≠ VF → Q (t.readV VF)) ∧
      FrameV [r, VF] s t ∧ Frame [.v] s t := by
  refine ⟨_, e, ?_, fun hr => ?_, frameV_writeFlagThen s c b r, frame_writeFlagThen s c b r⟩
  · rwa [writeFlagThen_readV_self]
  · rwa [writeFlagThen_readV_VF s c b hr]

/-- Where the destination is VF, VF ends with the result (R142). -/
theorem exec_result_VF {n : Nat} (e : exec i s = .next (writeFlagThen s c VF b)) (hb : b.toNat = n) :
    ∃ t, exec i s = .next t ∧ (t.readV VF).toNat = n :=
  ⟨_, e, by rwa [writeFlagThen_readV_self]⟩

/-- Where the destination is another register, VF ends with the flag (R142). -/
theorem exec_flag_VF {n : Nat} (e : exec i s = .next (writeFlagThen s c r b)) (hr : r ≠ VF)
    (hc : (flagByte c).toNat = n) : ∃ t, exec i s = .next t ∧ (t.readV VF).toNat = n :=
  ⟨_, e, by rwa [writeFlagThen_readV_VF s c b hr]⟩

end FlagThenResult

end Sys2Proof.Machine

namespace Sys2Proof.AluFamily

open Sys2Proof.Machine

/-- Settles O34, row by row: VF ends with the result where VF is the destination, and with the flag elsewhere. -/
theorem flagAliasing : Obligations.FlagAliasing := by
  rintro x y s a b f rfl rfl rfl
  refine ⟨?addVF, fun hx => ?addToX, ?addSelf, ?subVF, fun hx => ?subFromX, ?subSelf, ?shrVF, fun hx => ?shrX,
    fun hy => ?subnyToY, fun hx => ?subnyToVF, ?subnySelf, ?shlVF, fun hx => ?shlX⟩
  case addVF => exact exec_result_VF rfl (BitVec.toNat_add ..)
  case addToX => exact exec_flag_VF rfl hx (toNat_flagByte_decide _)
  case addSelf => exact exec_result_VF rfl (by rw [BitVec.toNat_add, Nat.two_mul])
  case subVF => exact exec_result_VF rfl (toNat_byte_sub ..)
  case subFromX => exact exec_flag_VF rfl hx (toNat_flagByte_decide _)
  case subSelf => exact exec_result_VF rfl (by rw [BitVec.sub_self]; rfl)
  case shrVF => exact exec_result_VF rfl (toNat_byte_shiftRight_one _)
  case shrX => exact exec_flag_VF rfl hx (toNat_flagByte_shiftedOutRight _)
  case subnyToY =>
    refine ⟨_, rfl, ?_, ?_⟩
    · rw [writeFlagThen_readV_VF _ _ _ hy]; exact toNat_flagByte_decide _
    · rw [writeFlagThen_readV_self, toNat_byte_sub]
  case subnyToVF => exact exec_result_VF rfl (toNat_byte_sub ..)
  case subnySelf => exact exec_result_VF rfl (by rw [BitVec.sub_self]; rfl)
  case shlVF => exact exec_result_VF rfl (by rw [toNat_byte_shiftLeft_one, Nat.mul_comm])
  case shlX => exact exec_flag_VF rfl hx (toNat_flagByte_shiftedOutLeft _)

/-- Settles O28: both are one write of VX. -/
theorem immediateLoadAndAdd : Obligations.ImmediateLoadAndAdd := by
  refine fun x nn s => ⟨encodedAs_of_toNat_encode rfl (toNat_packXNN ..),
    encodedAs_of_toNat_encode rfl (toNat_packXNN ..), ?_, ?_⟩
  · exact ⟨_, rfl, State.setV_readV_self .., frameV_setV s x _, frame_setV s x _⟩
  · refine ⟨_, rfl, ?_, frameV_setV s x _, frame_setV s x _⟩
    rw [State.setV_readV_self, BitVec.toNat_add]

/-- Settles O29: each is one write of VX, and a bit of the result is the operator on that bit of the operands. -/
theorem copyAndLogic : Obligations.CopyAndLogic := by
  refine fun x y s => ⟨encodedAs_of_toNat_encode rfl (toNat_packXYN_pattern ..),
    encodedAs_of_toNat_encode rfl (toNat_packXYN_pattern ..),
    encodedAs_of_toNat_encode rfl (toNat_packXYN_pattern ..),
    encodedAs_of_toNat_encode rfl (toNat_packXYN_pattern ..),
    ⟨_, rfl, State.setV_readV_self .., frameV_setV s x _, frame_setV s x _⟩,
    ⟨_, rfl, frameV_setV s x _, frame_setV s x _, fun k => ?or⟩,
    ⟨_, rfl, frameV_setV s x _, frame_setV s x _, fun k => ?and⟩,
    ⟨_, rfl, frameV_setV s x _, frame_setV s x _, fun k => ?xor⟩⟩
  case or => rw [State.setV_readV_self, BitVec.getLsbD_or]
  case and => rw [State.setV_readV_self, BitVec.getLsbD_and]
  case xor => rw [State.setV_readV_self, BitVec.getLsbD_xor]

/-- Settles O30: the carry is written to VF, then the sum to VX. -/
theorem addSetsCarry : Obligations.AddSetsCarry := fun _ _ _ =>
  ⟨encodedAs_of_toNat_encode rfl (toNat_packXYN_pattern ..),
    exec_writeFlagThen (P := (·.toNat = _)) (Q := (· = _)) rfl (BitVec.toNat_add ..) (flagByte_decide _)⟩

/-- Settles O31: the no-borrow flag is written to VF, then the difference to VX. -/
theorem subtractSetsNoBorrow : Obligations.SubtractSetsNoBorrow := fun _ _ _ =>
  ⟨encodedAs_of_toNat_encode rfl (toNat_packXYN_pattern ..),
    exec_writeFlagThen (P := (·.toNat = _)) (Q := (· = _)) rfl (toNat_byte_sub ..) (flagByte_decide _)⟩

/-- Settles O32: as `subtractSetsNoBorrow`, with the operands exchanged and VY as the destination. -/
theorem reverseSubtractWritesVy : Obligations.ReverseSubtractWritesVy := fun _ _ _ =>
  ⟨encodedAs_of_toNat_encode rfl (toNat_packXYN_pattern ..),
    exec_writeFlagThen (P := (·.toNat = _)) (Q := (· = _)) rfl (toNat_byte_sub ..) (flagByte_decide _)⟩

/-- Settles O33: the bit shifted out is written to VF, then the shifted byte to VX; neither reads VY. -/
theorem shiftsSetShiftedOutBit : Obligations.ShiftsSetShiftedOutBit := by
  refine fun x y s => ⟨encodedAs_of_toNat_encode rfl (toNat_packXYN_pattern ..),
    encodedAs_of_toNat_encode rfl (toNat_packXYN_pattern ..), ?_, ?_⟩
  · exact exec_writeFlagThen (P := (·.toNat = _)) (Q := (·.toNat = _)) rfl (toNat_byte_shiftRight_one _)
      (toNat_flagByte_shiftedOutRight _)
  · exact exec_writeFlagThen (P := (·.toNat = _)) (Q := (·.toNat = _)) rfl (toNat_byte_shiftLeft_one _)
      (toNat_flagByte_shiftedOutLeft _)

end Sys2Proof.AluFamily
end

section
/-! Family 44_index_memory. What an instruction leaves, by the fault R200's table gives it (`exec_completes`,
`exec_faults`), and what one write of I, of a range of memory or of a block of registers changes; after them the statements
of spec/44_index_memory.md. -/

namespace Sys2Proof

/-- The number of an FXNN word, with the digits of its pattern, F and NN, in one constant (R75, R76). -/
theorem toNat_packXNN_pattern (op : Nibble) (x : Reg) (nn : Byte) :
    (packXNN op x nn).toNat = (op.toNat * 0x1000 + nn.toNat) + x.val * 0x100 := by
  rw [toNat_packXNN]; omega

end Sys2Proof

namespace Sys2Proof.Machine

/-! ### An instruction by its fault condition (R200, R201) -/

section Outcome
variable {i : Instr} {s : State}

theorem exec_completes (h : faultOfInstr i s = none) : exec i s = .next (completed i s) := by
  rw [exec_eq, h, Option.elim_none]

theorem exec_faults {f : Fault} (h : faultOfInstr i s = some f) :
    ∃ t, exec i s = .next t ∧ Faulted f (some (encode i)) s t := by
  refine ⟨faultState s i f, ?_, takeFault_faulted ..⟩
  rw [exec_eq, h, Option.elim_some]

end Outcome

/-! ### The index register -/

theorem frame_setI (s : State) (a : Word) : Frame [.i] s (s.setI a) := by
  intro g hg
  cases g <;> simp_all [SameField]

/-- The mask of FX29 keeps the low nibble, and every glyph address fits in 16 bits (R152). -/
theorem toNat_glyphAddr (d : Byte) : (glyphAddr d).toNat = 0x050 + 5 * (d.toNat % 16) := by
  have hmask : (d &&& 0x0F).toNat = d.toNat % 16 := Nat.and_two_pow_sub_one_eq_mod d.toNat 4
  have hbase : Config.fontBase = 0x050 := rfl
  rw [glyphAddr, hmask, hbase, BitVec.toNat_ofNat]
  omega

/-! ### A range of memory written -/

section Range
variable {s : State} (base : Nat) (bytes : List Byte)

theorem frame_setMem (m : Memory) : Frame [.mem] s (s.setMem m) := by
  intro g hg
  cases g <;> simp_all [SameField]

/-- A range write reaches no address outside its range (R53). -/
theorem frameMem_writeRange (hm : Memory.wf s.mem) :
    FrameMem base bytes.length s (s.setMem (Memory.writeRange s.mem base bytes)) := by
  intro a ha
  rw [State.setMem_readByte, Memory.read_writeRange hm.1, dif_neg (by omega)]
  rfl

end Range

/-! ### A block of registers loaded -/

section Load
variable {x k : Reg} (s : State)

/-- FX65 completed leaves in VK the byte at I + K (R155). -/
theorem completed_loadRegs_readV (hk : k ≤ x) :
    (completed (.loadRegs x) s).readV k = s.readByte (s.i.toNat + k.val) := by
  have hlt : k.val < x.val + 1 := Nat.lt_succ_of_le hk
  simp [completed, State.readV, getElem_loadBlock, Memory.getElem_readRange, hlt, State.readByte]

theorem frame_completed_loadRegs : Frame [.v] s (completed (.loadRegs x) s) := by
  intro g hg
  cases g with
  | v => exact absurd List.mem_cons_self hg
  | mem => exact fun _ => rfl
  | fb => exact fun _ _ => rfl
  | key => exact fun _ => rfl
  | _ => rfl

end Load

end Sys2Proof.Machine

namespace Sys2Proof.IndexFamily

open Sys2Proof.Machine

/-- Settles O42, by whether the last of the three addresses lies in memory. -/
theorem storeDecimalDigits : Obligations.StoreDecimalDigits := by
  refine fun x s hm => ⟨encodedAs_of_toNat_encode rfl (toNat_packXNN_pattern ..), fun hi => ?_,
    fun hi => exec_faults (if_pos hi)⟩
  have e : exec (.ldB x) s = _ := exec_completes (if_neg (Nat.not_le.2 hi))
  have digit := fun k (hk : k < 3) => toNat_readByte_of_exec_ldB (k := k) hm hi hk e
  refine ⟨_, e, ?_, digit 1 (by omega), ?_, frameMem_writeRange _ (bcdDigits _) hm, frame_setMem _⟩
  · have hlt : (s.readV x).toNat / 10 ^ 2 < 10 := by have := (s.readV x).isLt; omega
    exact (digit 0 (by omega)).trans (Nat.mod_eq_of_lt hlt)
  · simpa using digit 2 (by omega)

/-- Settles O43, by whether the last address I + X lies in memory. -/
theorem storeRegisters : Obligations.StoreRegisters := by
  refine fun x s hm => ⟨encodedAs_of_toNat_encode rfl (toNat_packXNN_pattern ..), fun hi => ?_,
    fun hi => exec_faults (if_pos hi)⟩
  have e : exec (.storeRegs x) s = _ := exec_completes (if_neg (Nat.not_le.2 hi))
  refine ⟨_, e, fun k hk => readByte_of_exec_storeRegs hm hi hk e, ?_, frame_setMem _⟩
  exact length_blockOf s x ▸ frameMem_writeRange _ (blockOf s x) hm

/-- Settles O44, by whether the last address I + X lies in memory. -/
theorem loadRegisters : Obligations.LoadRegisters := by
  refine fun x s => ⟨encodedAs_of_toNat_encode rfl (toNat_packXNN_pattern ..), fun hi => ?_,
    fun hi => exec_faults (if_pos hi)⟩
  refine ⟨_, exec_completes (if_neg (Nat.not_le.2 hi)), fun k hk => completed_loadRegs_readV s hk, fun k hk => ?_,
    frame_completed_loadRegs s⟩
  by_contra hne
  exact absurd (completed_loadRegs_readV_ne hne) (Fin.not_le.2 hk)

/-- Settles O45: FX55 keeps I, so FX65 reads VK back from the address FX55 stored it at. -/
theorem storeThenLoadRegisters : Obligations.StoreThenLoadRegisters := by
  intro x s t t' hm hi e hmem hI
  have hstored : exec (.storeRegs x) s = _ := exec_completes (if_neg (Nat.not_le.2 hi))
  obtain rfl := Host.Outcome.next.inj (hstored.symm.trans e)
  have ht : t'.i = s.i := hI
  have hload : ¬4096 ≤ t'.i.toNat + x.val := by
    rw [ht]; omega
  refine ⟨_, exec_completes (if_neg hload), fun k hk => ?_⟩
  calc (completed (.loadRegs x) t').readV k
      = t'.readByte (s.i.toNat + k.val) := by rw [completed_loadRegs_readV t' hk, ht]
    _ = (completed (.storeRegs x) s).readByte (s.i.toNat + k.val) := congrArg (Memory.read · _) hmem
    _ = s.readV k := readByte_of_exec_storeRegs hm hi hk e

/-- Settles O40: both are one write of I. -/
theorem indexLoads : Obligations.IndexLoads := by
  refine fun nnn x s => ⟨encodedAs_of_toNat_encode rfl (toNat_packA ..),
    encodedAs_of_toNat_encode rfl (toNat_packXNN_pattern ..), ?_, ?_⟩
  · exact ⟨_, rfl, toNat_addrOperand nnn, frame_setI s _⟩
  · exact ⟨_, rfl, toNat_glyphAddr _, frame_setI s _⟩

/-- Settles O41, by whether the sum fits in 16 bits. -/
theorem indexAdd : Obligations.IndexAdd := by
  refine fun x s => ⟨encodedAs_of_toNat_encode rfl (toNat_packXNN_pattern ..), fun h => ?_,
    fun h => exec_faults (if_pos h)⟩
  refine ⟨_, exec_completes (if_neg (Nat.not_lt.2 h)), ?_, frame_setI s _⟩
  exact (BitVec.toNat_ofNat ..).trans (Nat.mod_eq_of_lt (Nat.lt_succ_of_le h))

end Sys2Proof.IndexFamily
end

section
/-! Family 45_rng. The value CXNN leaves as a number, what one draw and one register write leave unchanged, and which
instruction draws; after them the statements of spec/45_rng.md. -/

namespace Sys2Proof.Machine

section Draw
variable {i : Instr} {s : State}

/-- The mask acts on the draw's own number, since zero extension keeps it (R160). -/
theorem toNat_maskedDraw (d : Nibble) (nn : Byte) : (d.setWidth 8 &&& nn).toNat = d.toNat &&& nn.toNat := by
  rw [BitVec.toNat_and, BitVec.toNat_setWidth_of_le (by decide)]

/-- A draw has four bits, and a mask only clears bits (R160). -/
theorem maskedDraw_le (d : Nibble) (n : Nat) : d.toNat &&& n ≤ 15 :=
  Nat.and_le_left.trans (Nat.le_of_lt_succ d.isLt)

theorem frame_setDraws_setV (n : Nat) (x : Reg) (b : Byte) : Frame [.v, .draws] s ((s.setDraws n).setV x b) := by
  intro g hg
  cases g <;> simp_all [SameField]

/-- The one instruction that draws (R161). -/
theorem completed_draws_ne (h : (completed i s).draws ≠ s.draws) : ∃ x nn, i = .rnd4 x nn := by
  cases i with
  | rnd4 x nn => exact ⟨x, nn, rfl⟩
  | _ => exact absurd rfl h

end Draw

end Sys2Proof.Machine

namespace Sys2Proof.RandomFamily

open Sys2Proof.Machine

/-- Settles O39: CXNN cannot fault, so it completes and has drawn; a fault draws nothing, and no other completed
instruction does. -/
theorem onlyRandomDraws : Obligations.OnlyRandomDraws := by
  refine fun i s t e => ⟨?_, fun hi => ?_⟩
  · rintro ⟨x, nn, rfl⟩
    obtain rfl := Host.Outcome.next.inj ((exec_completes rfl).symm.trans e)
    rfl
  · obtain ⟨f, -, rfl⟩ | ⟨-, rfl⟩ := exec_cases e
    · rfl
    · exact by_contra fun h => hi (completed_draws_ne h)

/-- Settles O49: CXNN is one draw and one write of VX, so the registers change as in that write alone. -/
theorem randomIsMaskedDraw : Obligations.RandomIsMaskedDraw := by
  refine fun x nn s => ⟨encodedAs_of_toNat_encode rfl (toNat_packXNN ..), _, exec_completes rfl, ?_⟩
  have value : ((completed (.rnd4 x nn) s).readV x).toNat = (Config.rngDraw s.draws).toNat &&& nn.toNat :=
    (congrArg BitVec.toNat (State.setV_readV_self ..)).trans (toNat_maskedDraw ..)
  exact ⟨value, value.trans_le (maskedDraw_le ..), frameV_setV (s.setDraws _) x _, frame_setDraws_setV _ x _⟩

end Sys2Proof.RandomFamily
end

section
/-! Family 46_input. What a skip on a key and FX0A do, by the key a register names and by the keys that are held; after them
the statements of spec/46_input.md. -/

namespace Sys2Proof.Machine

section Input
variable {s : State} {x : Reg}

/-! ### Skips on a key (R170, R171) -/

/-- A register that holds a key's number names that key. -/
theorem keyOperand_of_eq {k : Fin 16} (h : (s.readV x).toNat = k.val) : keyOperand s x = .ok k := by
  obtain ⟨hgt, -⟩ | ⟨k', h', e⟩ := keyOperand_cases s x
  · omega
  · obtain rfl : k = k' := Fin.ext (h.symm.trans h')
    exact e

theorem exec_skp_of_eq {k : Fin 16} (h : (s.readV x).toNat = k.val) :
    exec (.skp x) s = .next (skipIf (s.readKey k) s) := by
  rw [exec, execSkp, keyOperand_of_eq h]; rfl

theorem exec_sknp_of_eq {k : Fin 16} (h : (s.readV x).toNat = k.val) :
    exec (.sknp x) s = .next (skipIf (!s.readKey k) s) := by
  rw [exec, execSknp, keyOperand_of_eq h]; rfl

/-- An instruction that is a skip on `c` writes pc alone, and moves it past the next word exactly where `P`, which decides
`c`, holds (R120). -/
theorem exec_skipIf_pc_ite {i : Instr} {c : Bool} {P : Prop} [Decidable P] (e : exec i s = .next (skipIf c s))
    (hP : c = true ↔ P) : ∃ t, exec i s = .next t ∧ t.pc = (if P then s.pc + 2 else s.pc) ∧ Frame [.pc] s t := by
  rw [skipIf_eq_setPc] at e
  exact ⟨_, e, if_congr hP rfl rfl, frame_setPc s _⟩

/-! ### The wait for a key (R172) -/

theorem frame_refl (fs : List Field) (s : State) : Frame fs s s := by
  intro g _
  cases g <;> simp [SameField]

/-- FX0A with no key held goes back to itself. -/
theorem exec_waitk_of_released (h : ∀ k, s.readKey k = false) : exec (.waitk x) s = .next s.rewindPc := by
  rw [exec, execWaitk, (lowestHeldKey_eq_none s).2 h]

/-- The rewind undoes the cycle's advance of pc, so a cycle that waits changes nothing. -/
theorem exec_waitk_advancePc (h : ∀ k, s.readKey k = false) : exec (.waitk x) s.advancePc = .next s := by
  rw [exec_waitk_of_released (s := s.advancePc) h, State.rewindPc_advancePc]

/-- FX0A with some key held goes on, and stores the lowest one where FX0A_STORE_KEY is true. -/
theorem exec_waitk_of_lowest {k : Fin 16} (hk : s.readKey k = true) (hlow : ∀ j, j < k → s.readKey j = false) :
    exec (.waitk x) s = .next (if s.params.storeKey then s.setV x (BitVec.ofNat 8 k.val) else s) := by
  rw [exec, execWaitk, (lowestHeldKey_eq_some s).2 ⟨k.isLt, hk, hlow⟩]

theorem waitPc_of_held (h : ∃ k, s.readKey k = true) : waitPc s = s.pc := by
  obtain ⟨k, hk⟩ := h
  refine if_neg fun hnone => ?_
  rw [(lowestHeldKey_eq_none s).1 hnone k] at hk
  cases hk

/-- The number of a key fits in a byte. -/
theorem toNat_keyByte (k : Fin 16) : (BitVec.ofNat 8 k.val).toNat = k.val :=
  (BitVec.toNat_ofNat ..).trans (Nat.mod_eq_of_lt (k.isLt.trans (by decide)))

/-- A core whose step changes nothing stays as it is, however often it steps. -/
theorem run_of_step_self {M : Host.Core} {c : M.State} (h : M.step c = .next c) (n : Nat) : M.run n c = .next c := by
  induction n with
  | zero => rfl
  | succ n ih =>
    rw [Host.Core.run, h]
    exact ih

end Input

end Sys2Proof.Machine

namespace Sys2Proof.InputFamily

open Sys2Proof.Machine

/-- Settles O51, by whether a key is held, and then by FX0A_STORE_KEY. -/
theorem waitForKey : Obligations.WaitForKey := by
  refine fun x s => ⟨encodedAs_of_toNat_encode rfl (toNat_packXNN_pattern ..), fun h => ?_, fun k hk hlow => ?_⟩
  · exact ⟨_, exec_waitk_of_released h, rfl, frame_setPc s _⟩
  · refine ⟨_, exec_waitk_of_lowest hk hlow, fun hp => ?_, fun hp => ?_⟩
    · rw [hp]
      exact frame_refl [] s
    · rw [if_pos hp, State.setV_readV_self]
      exact ⟨toNat_keyByte k, frameV_setV s x _, frame_setV s x _⟩

/-- Settles O52: the cycle advances pc and FX0A rewinds it, so without a key the core stays as it is; with one, FX0A leaves
pc where the cycle moved it. -/
theorem waitSpinsUntilKey : Obligations.WaitSpinsUntilKey := by
  intro s x hfault hpc hw hop
  have hstep : step s = exec (.waitk x) (s.setSchedule s.schedule.issue.2).advancePc := by
    rw [step_eq_exec hop hfault hpc, hw]
    rfl
  have hspin (h : ∀ k, s.readKey k = false) : step s = .next (s.setSchedule s.schedule.issue.2) :=
    hstep.trans (exec_waitk_advancePc (s := s.setSchedule _) h)
  refine ⟨hspin, fun h hcycles => ?_, fun h => ⟨_, hstep.trans (exec_completes rfl), ?_, ?_⟩⟩
  · have hstay : step s = .next s := by
      rw [hspin h, hcycles, issue_cycles, ← hcycles]
      rfl
    exact run_of_step_self hstay
  · exact waitPc_of_held h
  · rw [completed_fault]
    exact hfault

/-- Settles O50, by whether VX names a key; both are then a skip on that key. -/
theorem keySkips : Obligations.KeySkips := by
  refine fun x s => ⟨encodedAs_of_toNat_encode rfl (toNat_packXNN_pattern ..),
    encodedAs_of_toNat_encode rfl (toNat_packXNN_pattern ..), fun k h => ⟨?_, ?_⟩, fun h => ⟨?_, ?_⟩⟩
  · exact exec_skipIf_pc_ite (exec_skp_of_eq h) Iff.rfl
  · exact exec_skipIf_pc_ite (exec_sknp_of_eq h) (Bool.not_eq_true' _).to_iff
  · exact exec_faults (if_pos h)
  · exact exec_faults (if_pos h)

end Sys2Proof.InputFamily
end

section
/-! Family 47_timers. What a write of DT leaves unchanged; after it the statement of spec/47_timers.md. -/

namespace Sys2Proof.Machine

theorem frame_setDt (s : State) (b : Byte) : Frame [.dt] s (s.setDt b) := by
  intro g hg
  cases g <;> simp_all [SameField]

end Sys2Proof.Machine

namespace Sys2Proof.TimersFamily

open Sys2Proof.Machine

/-- Settles O53: none of the three can fault, so each completes with its one write, of VX, of DT or of ST. -/
theorem timerTransfers : Obligations.TimerTransfers := by
  refine fun x s => ⟨encodedAs_of_toNat_encode rfl (toNat_packXNN_pattern ..),
    encodedAs_of_toNat_encode rfl (toNat_packXNN_pattern ..),
    encodedAs_of_toNat_encode rfl (toNat_packXNN_pattern ..), ?_, ?_, ?_⟩
  · exact ⟨_, exec_completes rfl, State.setV_readV_self .., frameV_setV s x _, frame_setV s x _⟩
  · exact ⟨_, exec_completes rfl, State.setDt_dt .., frame_setDt s _⟩
  · exact ⟨_, exec_completes rfl, State.setSt_st .., frame_setSt s _⟩

end Sys2Proof.TimersFamily
end

section
/-! Family 60_exceptions. The fault a cycle takes and what it leaves (`cycle_takes_fault`, `cycle_completes`), what the
timer step, a key write and the read ports do, and a run of any length as the operations of the host's sequence performed
one after the other (`run_of_performAll`); after them the statements of spec/60_exceptions.md. -/

namespace Sys2Proof.Machine

/-! ### The fault of a cycle (R200 to R202) -/

section CycleFault
variable {i : Instr} {s : State} {f : Fault}

/-- No condition of R200's table for an instruction looks at pc. -/
theorem faultOfInstr_advancePc (i : Instr) (s : State) : faultOfInstr i s.advancePc = faultOfInstr i s := by
  cases i <;> rfl

/-- An instruction's own memory accesses are reads and writes, so only the fetch raises a FETCH fault (R200). -/
theorem faultOfInstr_ne_fetch (a : Nat) : faultOfInstr i s ≠ some (.memOob a .fetch) := by
  cases i <;> simp [faultOfInstr]

/-- An instruction records the fault R200's table gives it, where no fault was held before. -/
theorem exec_records_faultOfInstr (i : Instr) (hfault : s.fault = none) :
    ∃ t, exec i s = .next t ∧ t.fault.map FaultRecord.cause = faultOfInstr i s := by
  refine ⟨_, exec_eq i s, ?_⟩
  cases faultOfInstr i s with
  | none => rw [Option.elim_none, completed_fault, hfault, Option.map_none]
  | some f => rfl

theorem faultOfCycle_of_le (h : s.pc.toNat ≤ 4094) : faultOfCycle s = faultOfInstr (decodeWord (wordAt s)) s :=
  if_neg (by omega)

theorem faultOfCycle_of_lt (h : 4094 < s.pc.toNat) : faultOfCycle s = some (.memOob (max s.pc.toNat 4096) .fetch) :=
  if_pos h

/-- A fault an instruction takes inside a cycle leaves pc where the cycle found it, so only the record is new (R201). -/
theorem faultState_advancePc (s : State) (i : Instr) (f : Fault) :
    faultState s.advancePc i f = s.setFault (some ⟨f, s.pc, some (encode i)⟩) := by
  have hpc : s.pc + 2 - 2 = s.pc := BitVec.add_sub_cancel ..
  simp only [faultState, takeFault, State.advancePc, State.setPc, State.setFault, hpc]

/-- A cycle for which R200's table gives a fault writes its record and nothing else; the record holds no word exactly for
a FETCH fault (R201). -/
theorem cycle_takes_fault (hfault : s.fault = none) (hf : faultOfCycle s = some f) :
    ∃ w, cycle s = .next (s.setFault (some ⟨f, s.pc, w⟩)) ∧ ((∃ a, f = .memOob a .fetch) ↔ w = none) ∧
      ∀ v, w = some v → v = wordAt s := by
  rcases Nat.lt_or_ge 4094 s.pc.toNat with hpc | hpc
  · obtain rfl := Option.some.inj ((faultOfCycle_of_lt hpc).symm.trans hf)
    exact ⟨none, cycle_of_fetch_error hfault (fetch_of_lt hpc), by simp, by simp⟩
  · rw [faultOfCycle_of_le hpc] at hf
    refine ⟨some (wordAt s), ?_, ?_, fun v h => (Option.some.inj h).symm⟩
    · rw [cycle_of_le hfault hpc, exec_eq, faultOfInstr_advancePc, hf, Option.elim_some, faultState_advancePc,
        encode_decodeWord]
    · refine iff_of_false ?_ (Option.some_ne_none _)
      rintro ⟨a, rfl⟩
      exact faultOfInstr_ne_fetch a hf

/-- A cycle for which R200's table gives no fault completes the instruction at pc (R70). -/
theorem cycle_completes (hfault : s.fault = none) (hf : faultOfCycle s = none) :
    cycle s = .next (completed (decodeWord (wordAt s)) s.advancePc) := by
  have hpc : s.pc.toNat ≤ 4094 := by
    by_contra h
    rw [faultOfCycle_of_lt (by omega)] at hf
    cases hf
  rw [faultOfCycle_of_le hpc] at hf
  rw [cycle_of_le hfault hpc, exec_completes ((faultOfInstr_advancePc _ s).trans hf)]

end CycleFault

/-! ### TICK, KEY and the read ports -/

section HostOps
variable (s : State)

/-- A timer counts down to zero and stays there (R211), which is subtraction of natural numbers. -/
theorem toNat_countDown (b : Byte) : (countDown b).toNat = b.toNat - 1 := by
  unfold countDown
  split_ifs with h
  · subst h; rfl
  · bv_omega

theorem frame_tick : Frame [.dt, .st] s (tick s) := by
  intro g hg
  cases g <;> simp_all [SameField, tick]

theorem setKey_readKey_self (k : Fin 16) (held : Bool) : (s.setKey k held).readKey k = held := by
  rw [State.setKey_readKey, if_pos rfl]

theorem frame_setKey (k : Fin 16) (held : Bool) : Frame [.key] s (s.setKey k held) := by
  intro g hg
  cases g <;> simp_all [SameField]

/-- The framebuffer port gives the rows joined into one vector. -/
theorem readFb_eq_flatten : readFb s = s.fb.flatten.toList := by
  rw [readFb, List.flatMap_def, Vector.flatten]
  simp [Vector.toList, Function.comp_def]

theorem length_readFb : (readFb s).length = 2048 := by
  rw [readFb_eq_flatten]
  exact Vector.length_toList

/-- Pixel (x, y) is the element y * 64 + x of the framebuffer port (R214). -/
theorem getElem?_readFb {x y : Nat} (hx : x < 64) (hy : y < 32) : (readFb s)[y * 64 + x]? = some (s.pixel x y) := by
  have hlt : y * 64 + x < 32 * 64 := by omega
  have hrow : (y * 64 + x) / 64 = y := by omega
  have hcolumn : (y * 64 + x) % 64 = x := by omega
  rw [readFb_eq_flatten, Vector.getElem?_toList, Vector.getElem?_eq_getElem hlt, Vector.getElem_flatten]
  simp [State.pixel, getPixel, hrow, hcolumn, hx, hy]

end HostOps

/-! ### A run of the machine is its host's operations, one after the other (R210) -/

section Runs

/-- What is left of the host's sequence after its first n operations. -/
def Schedule.drop : Nat → Schedule → Schedule
  | 0, c => c
  | n + 1, c => Schedule.drop n c.issue.2

theorem nth_drop (n : Nat) (c : Schedule) (k : Nat) : (c.drop n).nth k = c.nth (n + k) := by
  induction n generalizing c with
  | zero => rw [Schedule.drop, Nat.zero_add]
  | succ n ih => rw [Schedule.drop, ih, ← nth_succ, Nat.add_right_comm]

theorem drop_after (c : Schedule) (ops : List HostOp) : (c.after ops).drop ops.length = c := by
  induction ops with
  | nil => rfl
  | cons op ops ih => rw [List.length_cons, Schedule.drop, issue_after_cons, ih]

/-- The first n operations the host issues. -/
def Schedule.take (c : Schedule) (n : Nat) : List HostOp := (List.range n).map c.nth

theorem take_succ (c : Schedule) (n : Nat) : c.take (n + 1) = c.issue.1 :: c.issue.2.take n := by
  simp only [Schedule.take, List.range_succ_eq_map, List.map_cons, List.map_map, nth_zero]
  exact congrArg _ (List.map_congr_left fun k _ => nth_succ c k)

theorem take_after (c : Schedule) (ops : List HostOp) : (c.after ops).take ops.length = ops := by
  induction ops with
  | nil => rfl
  | cons op ops ih => rw [List.length_cons, take_succ, issue_after_cons, ih]

/-- No operation reads the host's schedule. -/
theorem performAll_setSchedule (ops : List HostOp) (s : State) (l : Schedule) :
    performAll ops (s.setSchedule l) = mapNext (·.setSchedule l) (performAll ops s) := by
  induction ops generalizing s with
  | nil => rfl
  | cons op ops ih =>
    rw [performAll, performAll, perform_setSchedule]
    cases perform op s with
    | next t => exact ih t
    | _ => rfl

/-- Operations complete one after the other exactly when the first completes and the rest do from there. -/
theorem performAll_cons {op : HostOp} {ops : List HostOp} {s t : State} :
    performAll (op :: ops) s = .next t ↔ ∃ u, perform op s = .next u ∧ performAll ops u = .next t := by
  rw [performAll]
  cases perform op s <;> simp

/-- Operations that complete leave the host's schedule as it is. -/
theorem performAll_schedule {ops : List HostOp} {s t : State} (h : performAll ops s = .next t) :
    t.schedule = s.schedule := by
  induction ops generalizing s with
  | nil => exact congrArg State.schedule (Host.Outcome.next.inj h).symm
  | cons op ops ih =>
    obtain ⟨u, hu, hrest⟩ := performAll_cons.1 h
    exact (ih hrest).trans (perform_schedule hu)

theorem run_succ_of_step {M : Host.Core} {c d : M.State} (h : M.step c = .next d) (n : Nat) :
    M.run (n + 1) c = M.run n d := by
  rw [Host.Core.run, h]

/-- n steps perform the first n operations the host issues, and leave it the rest of its sequence. -/
theorem run_of_performAll {n : Nat} {s t : State} (h : performAll (s.schedule.take n) s = .next t) :
    Sys2Proof.core.run n s = .next (t.setSchedule (s.schedule.drop n)) := by
  induction n generalizing s t with
  | zero => exact congrArg (fun u : State => Host.Outcome.next (u.setSchedule s.schedule)) (Host.Outcome.next.inj h)
  | succ n ih =>
    rw [take_succ] at h
    obtain ⟨u, hu, hrest⟩ := performAll_cons.1 h
    have hstep : step s = .next (u.setSchedule s.schedule.issue.2) := by rw [step_eq, hu]; rfl
    have hnext : performAll (s.schedule.issue.2.take n) (u.setSchedule s.schedule.issue.2) =
        .next (t.setSchedule s.schedule.issue.2) := by rw [performAll_setSchedule, hrest]; rfl
    have hrun := ih (s := u.setSchedule s.schedule.issue.2) hnext
    exact (run_succ_of_step hstep n).trans hrun

/-- The n-th operation of a host that repeats a list stands in the list at the remainder of n (R210). -/
theorem getElem?_mod_repeating (first : HostOp) (rest : List HostOp) (n : Nat) :
    (first :: rest)[n % (rest.length + 1)]? = some (Schedule.nth ⟨[], .repeating first rest⟩ n) := by
  have hlt : n % (rest.length + 1) < (first :: rest).length := Nat.mod_lt _ (Nat.succ_pos _)
  rw [List.getElem?_eq_getElem hlt]
  exact congrArg some (List.getD_eq_getElem _ _ hlt).symm

end Runs

end Sys2Proof.Machine

namespace Sys2Proof.ExceptionsFamily

open Sys2Proof.Machine

/-- Settles O15: the cycle takes the fault of the table where there is one, and completes where there is none. -/
theorem faultCausesAreExact : Obligations.FaultCausesAreExact := by
  refine ⟨fun s hfault => ?_, fun i s hfault => exec_records_faultOfInstr i hfault, fun _ _ => rfl, rfl, fun _ => rfl,
    fun _ => rfl, fun _ => rfl⟩
  cases hf : faultOfCycle s with
  | some f =>
    obtain ⟨w, e, -⟩ := cycle_takes_fault hfault hf
    exact ⟨_, e, rfl⟩
  | none =>
    have hnone : (completed (decodeWord (wordAt s)) s.advancePc).fault = none := (completed_fault ..).trans hfault
    exact ⟨_, cycle_completes hfault hf, congrArg _ hnone⟩

/-- Settles O16: a cycle that completes records no fault, so the one at hand has taken the fault of the table. -/
theorem faultsArePrecise : Obligations.FaultsArePrecise := by
  intro s t r hfault e hr
  cases hf : faultOfCycle s with
  | some f =>
    obtain ⟨w, e', hfetch, hword⟩ := cycle_takes_fault hfault hf
    obtain rfl := Host.Outcome.next.inj (e'.symm.trans e)
    obtain rfl := Option.some.inj hr
    exact ⟨rfl, rfl, rfl, hfetch, hword⟩
  | none =>
    obtain rfl := Host.Outcome.next.inj ((cycle_completes hfault hf).symm.trans e)
    rw [completed_fault, State.advancePc_fault, hfault] at hr
    cases hr

/-- Settles O17, operation by operation: none but RESET writes the fault record, and only CYCLE reads it. -/
theorem faultIsSticky : Obligations.FaultIsSticky := by
  intro s r hfault
  refine ⟨cycle_of_fault hfault, ⟨_, rfl, hfault, toNat_countDown _, toNat_countDown _⟩,
    fun k held => ⟨_, rfl, hfault, setKey_readKey_self s k held⟩, rfl, rfl, rfl, hfault, fun program hl => ?_, ?_⟩
  · obtain ⟨-, t, e, -, ht⟩ | ⟨hlt, -⟩ := perform_reset_cases s program
    · exact ⟨t, e, ht⟩
    · omega
  · rw [runStatus, hfault]

/-- Settles O56: the framebuffer port is the rows joined, each of 64 pixels; the other ports are fields. -/
theorem readPorts : Obligations.ReadPorts :=
  fun s => ⟨length_readFb s, fun _ _ => getElem?_readFb s, rfl, decide_eq_true_iff, rfl, rfl, rfl, rfl⟩

/-- Settles O57: the steps perform the operations that stand first in the schedule, and leave the host what it had. -/
theorem everyInterleavingRuns : Obligations.EveryInterleavingRuns := by
  intro ops s t e
  have hall : performAll ((s.schedule.after ops).take ops.length) (s.setSchedule (s.schedule.after ops)) =
      .next (t.setSchedule (s.schedule.after ops)) := by
    rw [take_after, performAll_setSchedule, e]; rfl
  refine (run_of_performAll hall).trans ?_
  rw [State.setSchedule_schedule, drop_after, ← performAll_schedule e]
  rfl

/-- Settles O59: what the steps leave of the sequence is its rest, and the sequences are as they are written. -/
theorem infiniteSequencesRun : Obligations.InfiniteSequencesRun := by
  refine ⟨fun n s t e => ⟨_, run_of_performAll e, nth_drop n s.schedule⟩, fun c ops k => ⟨nth_after_lt c ops, ?_⟩,
    getElem?_mod_repeating, fun n k => rfl⟩
  rw [← nth_drop, drop_after]

/-- Settles O54: the step is one write of DT and one of ST. -/
theorem tickCountsDown : Obligations.TickCountsDown :=
  fun s => ⟨_, rfl, toNat_countDown _, toNat_countDown _, frame_tick s⟩

/-- Settles O55: the operation is one write of the latch. -/
theorem keyOverwritesFlag : Obligations.KeyOverwritesFlag := by
  refine fun k held s => ⟨_, rfl, setKey_readKey_self s k held, fun j hj => ?_, frame_setKey s k held⟩
  rw [State.setKey_readKey, if_neg hj]

end Sys2Proof.ExceptionsFamily
end

section
/-! Family 70_reset_and_hazards. What RESET leaves in memory and in the other fields, what a sequence of operations keeps
when each of its operations keeps it (`performAll_keeps`), and final states; after them the statements of
spec/70_reset_and_hazards.md. -/

namespace Sys2Proof.Machine

/-! ### The core RESET builds (R35, R240) -/

section Launch
variable {p : Config.Params} {program : List Byte} {s t u : State}

section LaunchMemory
variable (program) (hm : Memory.wf p.initMem)
include hm

/-- Writing the font keeps the addresses rising, so the program's bytes can be read over it. -/
theorem font_pairwise :
    (Memory.writeRange p.initMem Config.fontBase (Config.fontBytes p)).Pairwise (fun c d => c.1 < d.1) :=
  (Memory.writeRange_wf hm (by rw [length_fontBytes]; decide)).1

/-- The program is written last, so its bytes stand (R240). -/
theorem read_launchMemory_program (k : Nat) (h : k < program.length) :
    Memory.read (launchMemory p program) (0x200 + k) = program[k] := by
  simp [launchMemory, Memory.read_writeRange (font_pairwise hm), Config.programBase, h]

/-- Outside the program memory is as the font left it. -/
theorem read_launchMemory_of_outside {a : Nat} (h : a < 0x200 ∨ 0x200 + program.length ≤ a) :
    Memory.read (launchMemory p program) a =
      Memory.read (Memory.writeRange p.initMem Config.fontBase (Config.fontBytes p)) a := by
  have hbase : Config.programBase = 0x200 := rfl
  rw [launchMemory, Memory.read_writeRange (font_pairwise hm), dif_neg (by omega)]

/-- The font lies below the program (R56, R240). -/
theorem read_launchMemory_font (k : Nat) (h : k < 80) :
    Memory.read (launchMemory p program) (0x050 + k) = (Config.fontBytes p)[k]'(by rw [length_fontBytes]; exact h) := by
  rw [read_launchMemory_of_outside program hm (by omega)]
  have hlt : 0x050 + k < 160 := by omega
  simp [Memory.read_writeRange hm.1, Config.fontBase, hlt]

/-- Memory outside font and program is INIT_MEM's. -/
theorem read_launchMemory_rest {a : Nat} (h : a < 0x050 ∨ (0x0A0 ≤ a ∧ a < 0x200) ∨ 0x200 + program.length ≤ a) :
    Memory.read (launchMemory p program) a = Memory.read p.initMem a := by
  have hbase : Config.fontBase = 0x050 := rfl
  have hlen := length_fontBytes p
  rw [read_launchMemory_of_outside program hm (by omega), Memory.read_writeRange hm.1, dif_neg (by omega)]

end LaunchMemory

/-- The font begins with the glyph the source gives (R56). -/
theorem getElem_fontBytes_glyph0 (k : Nat) (h : k < 5) :
    (Config.fontBytes p)[k]'(by rw [length_fontBytes]; omega) = [0xF0#8, 0x90, 0x90, 0x90, 0xF0].getD k 0 := by
  have hglyph : k < Config.glyph0.length := h
  exact (List.getElem_append_left hglyph).trans (List.getD_eq_getElem _ _ h).symm

/-- Glyphs 1 to F follow it. -/
theorem getElem_fontBytes_glyphs (k : Nat) (h : k < 75) :
    (Config.fontBytes p)[5 + k]'(by rw [length_fontBytes]; omega) = p.glyphs[k] := by
  unfold Config.fontBytes
  rw [List.getElem_append_right (Nat.le_add_right 5 k)]
  simp [Config.glyph0]

theorem launch_of_le (p : Config.Params) (h : program.length ≤ 3584) : ∃ t, launch p program = .ok t :=
  ⟨_, if_pos h⟩

/-- A launch that is not refused builds the fresh core. -/
theorem launch_freshCore (hm : Memory.wf p.initMem) (e : launch p program = .ok t) : FreshCore p program t := by
  unfold launch at e
  split_ifs at e
  obtain rfl := Except.ok.inj e
  exact {
    pc := rfl, stack := rfl, fault := rfl, v := rfl, i := rfl
    dt := rfl, st := rfl, fb := rfl, key := rfl, params := rfl
    programBytes := read_launchMemory_program program hm
    glyph0 := fun k h => (read_launchMemory_font program hm k (by omega)).trans (getElem_fontBytes_glyph0 k h)
    glyphs := fun k h => by
      have hfont := read_launchMemory_font program hm (5 + k) (by omega)
      rw [← Nat.add_assoc] at hfont
      exact hfont.trans (getElem_fontBytes_glyphs k h)
    rest := fun a => read_launchMemory_rest program hm }

/-- The model's own fields are none of those a fresh core is told by. -/
theorem FreshCore.setDraws_setSchedule (h : FreshCore p program t) (n : Nat) (l : Schedule) :
    FreshCore p program ((t.setDraws n).setSchedule l) :=
  { h with }

/-- RESET is a launch with the core's own parameters, which goes on with the draws and the schedule (R240). -/
theorem perform_reset_of_launch (e : launch s.params program = .ok u) :
    perform (.reset program) s = .next ((u.setDraws s.draws).setSchedule s.schedule) := by
  rw [perform, resetCore, e]

theorem launch_of_perform_reset (e : perform (.reset program) s = .next t) :
    ∃ u, launch s.params program = .ok u ∧ t = (u.setDraws s.draws).setSchedule s.schedule := by
  cases h : launch s.params program with
  | error r => simp [perform, resetCore, h] at e
  | ok u => exact ⟨u, rfl, Host.Outcome.next.inj (e.symm.trans (perform_reset_of_launch h))⟩

theorem frame_draws_schedule (t : State) (n n' : Nat) (l l' : Schedule) :
    Frame [.draws, .schedule] ((t.setDraws n).setSchedule l) ((t.setDraws n').setSchedule l') := by
  intro g hg
  cases g <;> simp_all [SameField]

end Launch

/-! ### What a sequence of operations keeps -/

section Keeps
variable {s t u : State} {fs gs : List Field}

theorem SameField.trans {g : Field} (h : SameField s t g) (h' : SameField t u g) : SameField s u g := by
  cases g
  case v | mem | key => exact fun a => (h' a).trans (h a)
  case fb => exact fun x y => (h' x y).trans (h x y)
  all_goals exact Eq.trans h' h

theorem Frame.trans (h : Frame fs s t) (h' : Frame fs t u) : Frame fs s u :=
  fun g hg => (h g hg).trans (h' g hg)

/-- A frame that names more fields says less. -/
theorem Frame.mono (h : Frame fs s t) (hsub : fs ⊆ gs) : Frame gs s t :=
  fun g hg => h g fun hf => hg (hsub hf)

theorem frame_setSchedule (s : State) (l : Schedule) : Frame [.schedule] s (s.setSchedule l) := by
  intro g hg
  cases g <;> simp_all [SameField]

/-- What every operation of a sequence keeps, the sequence keeps: that `I` holds, and the frame. -/
theorem performAll_keeps {I : State → Prop} {ops : List HostOp}
    (h : ∀ op ∈ ops, ∀ s, I s → ∃ t, perform op s = .next t ∧ I t ∧ Frame fs s t) (hs : I s) :
    ∃ t, performAll ops s = .next t ∧ I t ∧ Frame fs s t := by
  induction ops generalizing s with
  | nil => exact ⟨s, rfl, hs, frame_refl fs s⟩
  | cons op ops ih =>
    obtain ⟨u, e, hu, hframe⟩ := h op List.mem_cons_self s hs
    obtain ⟨t, erest, ht, hrest⟩ := ih (fun op' hop => h op' (List.mem_cons_of_mem _ hop)) hu
    exact ⟨t, performAll_cons.2 ⟨u, e, erest⟩, ht, hframe.trans hrest⟩

/-- An operation that is neither CYCLE nor RESET changes DT, ST and Key at most (R254). -/
theorem perform_of_quiet {op : HostOp} (hcycle : op ≠ .cycle) (hreset : ∀ p, op ≠ .reset p) (s : State) :
    ∃ t, perform op s = .next t ∧ Frame [.dt, .st, .key] s t := by
  cases op with
  | cycle => exact absurd rfl hcycle
  | reset p => exact absurd rfl (hreset p)
  | tick => exact ⟨_, rfl, (frame_tick s).mono (by simp)⟩
  | key k held => exact ⟨_, rfl, (frame_setKey s k held).mono (by simp)⟩
  | readFb | readSound | readFault => exact ⟨s, rfl, frame_refl _ s⟩

theorem performAll_of_quiet {ops : List HostOp} (h : ∀ op ∈ ops, op ≠ .cycle ∧ ∀ p, op ≠ .reset p) (s : State) :
    ∃ t, performAll ops s = .next t ∧ Frame [.dt, .st, .key] s t := by
  obtain ⟨t, e, -, hframe⟩ := performAll_keeps (I := fun _ => True) (s := s) (fun op hop u _ => by
    obtain ⟨hcycle, hreset⟩ := h op hop
    obtain ⟨t, e, hframe⟩ := perform_of_quiet hcycle hreset u
    exact ⟨t, e, trivial, hframe⟩) trivial
  exact ⟨t, e, hframe⟩

end Keeps

/-! ### Final states (R253) -/

section Final
variable {s t : State}

/-- The word of a jump to pc, as a number: below 4096, pc does not reach the digit 1 (R86). -/
theorem toNat_haltWord {a : Word} (h : a.toNat ≤ 0xFFE) : (0x1000#16 ||| a).toNat = 0x1000 + a.toNat :=
  (Nat.two_pow_add_eq_or_of_lt (i := 12) (by omega) 1).symm

theorem isFinal_iff : isFinal s = true ↔
    s.fault = none ∧ s.pc.toNat ≤ 0xFFE ∧ (wordAt s).toNat = 0x1000 + s.pc.toNat := by
  simp only [isFinal, Bool.and_eq_true, Option.isNone_iff_eq_none, decide_eq_true_eq, beq_iff_eq, and_assoc]
  refine and_congr_right fun _ => and_congr_right fun hpc => ?_
  rw [← toNat_haltWord hpc, BitVec.toNat_inj]

/-- The word at pc of a final state is `HALT`, the jump to pc (R86, R253). -/
theorem decodeWord_of_isFinal (h : isFinal s = true) : decodeWord (wordAt s) = halt (s.pc.setWidth 12) := by
  obtain ⟨-, hpc, hword⟩ := isFinal_iff.1 h
  have hencode : encode (halt (s.pc.setWidth 12)) = wordAt s := by
    refine BitVec.eq_of_toNat_eq ?_
    rw [hword, halt, encode, toNat_packA, BitVec.toNat_setWidth, Nat.mod_eq_of_lt (by omega)]
    rfl
  rw [← hencode]
  exact decodeWord_encode rfl

/-- A cycle of a final state jumps back to where it was. -/
theorem cycle_of_isFinal (h : isFinal s = true) : cycle s = .next s := by
  obtain ⟨hfault, hpc, -⟩ := isFinal_iff.1 h
  have hjump : addrOperand (s.pc.setWidth 12) = s.pc := by
    refine BitVec.eq_of_toNat_eq ?_
    rw [toNat_addrOperand, BitVec.toNat_setWidth, Nat.mod_eq_of_lt (by omega)]
  calc cycle s
      = exec (halt (s.pc.setWidth 12)) s.advancePc := by rw [cycle_of_le hfault hpc, decodeWord_of_isFinal h]
    _ = .next (s.setPc (addrOperand (s.pc.setWidth 12))) := rfl
    _ = .next s := by rw [hjump]; rfl

/-- Whether a state is final depends on the fault record, pc and memory alone. -/
theorem isFinal_of_frame (h : isFinal s = true) (hframe : Frame [.dt, .st, .key] s t) : isFinal t = true := by
  have hfault : t.fault = s.fault := hframe .fault (by simp)
  have hpc : t.pc = s.pc := hframe .pc (by simp)
  have hmem : ∀ a, t.readByte a = s.readByte a := hframe .mem (by simp)
  simpa only [isFinal, wordAt, hfault, hpc, hmem] using h

/-- Every operation but RESET leaves a final state final. -/
theorem perform_of_isFinal {op : HostOp} (hreset : ∀ p, op ≠ .reset p) (h : isFinal s = true) :
    ∃ t, perform op s = .next t ∧ isFinal t = true ∧ Frame [.dt, .st, .key] s t := by
  by_cases hcycle : op = .cycle
  · subst hcycle
    exact ⟨s, cycle_of_isFinal h, h, frame_refl _ s⟩
  · obtain ⟨t, e, hframe⟩ := perform_of_quiet hcycle hreset s
    exact ⟨t, e, isFinal_of_frame h hframe, hframe⟩

end Final

end Sys2Proof.Machine

namespace Sys2Proof.ResetFamily

open Sys2Proof.Machine

/-- Settles O1: RESET is a launch, and what it goes on with is no part of a fresh core. -/
theorem launchBuildsFreshCore : Obligations.LaunchBuildsFreshCore := by
  refine ⟨fun p program hm hl => ?_, fun s program hm hl => ?_⟩
  · obtain ⟨t, e⟩ := launch_of_le p hl
    exact ⟨t, e, launch_freshCore hm e⟩
  · obtain ⟨u, e⟩ := launch_of_le s.params hl
    exact ⟨_, perform_reset_of_launch e, (launch_freshCore hm e).setDraws_setSchedule _ _, rfl, rfl⟩

/-- Settles O3: both cores make the same launch. -/
theorem resetForgetsTheOldCore : Obligations.ResetForgetsTheOldCore := by
  intro s s' t program hp e
  obtain ⟨u, hu, rfl⟩ := launch_of_perform_reset e
  rw [hp] at hu
  exact ⟨_, perform_reset_of_launch hu, frame_draws_schedule u _ _ _ _⟩

/-- Settles O58: CYCLE leaves a final state as it is, and the other operations touch nothing that makes it final. -/
theorem finalStateStays : Obligations.FinalStateStays := by
  refine ⟨fun s => isFinal_iff, fun ops s h hops => performAll_keeps (fun op hop s hs => ?_) h⟩
  exact perform_of_isFinal (fun p hp => hops p (hp ▸ hop)) hs

/-- Settles O60: the steps perform operations each of which changes DT, ST and Key at most. -/
theorem noProgressWithoutCycles : Obligations.NoProgressWithoutCycles := by
  intro n s hquiet
  have hops : ∀ op ∈ s.schedule.take n, op ≠ .cycle ∧ ∀ p, op ≠ .reset p := by
    intro op hop
    obtain ⟨k, hk, rfl⟩ := List.mem_map.1 hop
    exact hquiet k (List.mem_range.1 hk)
  obtain ⟨t, e, hframe⟩ := performAll_of_quiet hops s
  exact ⟨_, run_of_performAll e, (hframe.mono (by simp)).trans ((frame_setSchedule t _).mono (by simp))⟩

/-- Settles O4: the default font is what unlisted addresses read as, so writing it lists nothing. -/
theorem resetIsLaunchOfEmptyProgram : Obligations.ResetIsLaunchOfEmptyProgram :=
  ⟨⟨_, rfl, fun _ => rfl⟩, rfl, rfl, rfl, rfl⟩

end Sys2Proof.ResetFamily
end
